-- ==== Sys2Proof/Word.lean ====
section
/-! DEFINITION. The word types of the core's ports and the name of a circular byte buffer. -/

namespace Sys2Proof

/-- A byte value, `0 .. 255` (00_scope.md R14). -/
abbrev Byte := BitVec 8

/-- The 4-bit `INST` field that names an instance (30_encoding.md R81, R90). -/
abbrev Inst := BitVec 4

/-- A host command word `CMD` (30_encoding.md R81). -/
abbrev CmdWord := BitVec 64

/-- A buffer-port operation word `BUFOP` (30_encoding.md R88). -/
abbrev BufWord := BitVec 16

/-- An event word `EVT` (30_encoding.md R90). -/
abbrev EvtWord := BitVec 32

/-- The two buffers of an instance (00_scope.md R2). -/
inductive Side where
  | rx
  | tx
  deriving DecidableEq, Repr

/-- The name of one of the `2 * NUM_UART` buffers: `RXB[inst]` or `TXB[inst]`
(20_memory.md R60, R61). -/
structure BufId where
  inst : Inst
  side : Side
  deriving DecidableEq, Repr

end Sys2Proof
end

