-- ==== Sys2Proof/Config.lean ====
section
/-! DEFINITION. What an implementation of the core fixes (00_scope.md R4 to R11) and the values the
spec leaves free. The parameters are plain data that `Machine.State` carries and no step writes; the
OPEN ones are uninterpreted constants here, so that no proof can see a value of theirs. -/

namespace Sys2Proof

/-- The parameters of the whole core (00_scope.md R4, R5, R8, R9). `NUM_UART` (R6) is the number of
instances the state holds. -/
structure Params where
  /-- `IW`, the width in bits of a buffer index; `N = 2^IW` slots (R4, R5). -/
  iw : Nat
  /-- `GUARD_TICKS`, the length of the boot-guard window in ticks (R8). -/
  guardTicks : Nat
  /-- `TICK`, the period of one tick, in microseconds (R8). No rule reads it. -/
  tickMicros : Nat
  /-- `F_CLK`, the system clock frequency, an argument of `BAUD_DIV` only (R9). -/
  fClk : Nat
  deriving DecidableEq, Repr

/-- The peripheral descriptor of one instance (60_exceptions.md R225), read-only. -/
structure Descriptor where
  /-- `BOOT_GUARD_EN[i]` (00_scope.md R7). -/
  bootGuardEn : Bool
  /-- `DEFAULT_TX_PIN[i]`, of width `PIN_W = 8` (R10). -/
  defaultTxPin : Byte
  /-- `DEFAULT_RX_PIN[i]` (R10). -/
  defaultRxPin : Byte
  /-- `VEC_ID[i]` (R11). -/
  vecId : Nat
  deriving DecidableEq, Repr

/-- The bounds of R4 and R8: `1 <= IW <= 16` and `GUARD_TICKS >= 1`. -/
abbrev Params.wf (p : Params) : Prop :=
  1 ≤ p.iw ∧ p.iw ≤ 16 ∧ 1 ≤ p.guardTicks

namespace Config

/-- `BAUD_DIV(F_CLK, baud)`: OPEN, a function of its two arguments alone (00_scope.md R9, D15). -/
opaque baudDiv : Nat → BitVec 32 → BitVec 32

/-- `F_CLK` of the reset state: OPEN (R9, D16). -/
opaque fClk : Nat

/-- `BOOT_PORT` of the reset state: OPEN, one of the default three instances (R7, D10). -/
opaque bootPort : Fin 3

/-- `DEFAULT_RX_PIN[i]` of the reset state: OPEN (R10, D47). -/
opaque rxPin : Fin 3 → Byte

/-- How far `DEFAULT_TX_PIN[i]` stands from `DEFAULT_RX_PIN[i]`, less one: OPEN. Every pair of
distinct pins is some `rxPin` and `pinGap` (R10 says the two are distinct). -/
opaque pinGap : Fin 3 → Fin 255

/-- The free parts of `VEC_ID[0 .. 2]` of the reset state: OPEN (R11, D42). -/
opaque vecPart : Fin 3 → Nat

/-- The contents of a storage slot that no `STORE` has written since reset: unspecified
(10_state.md R23, D28, U14). -/
opaque storageAtReset : BufId → Nat → Byte

/-- The receive data register of instance `i` at reset: unspecified (10_state.md R36, U15). -/
opaque rxDataAtReset : Nat → Byte

/-- The transmit data register of instance `i` at reset: unspecified (10_state.md R37, U15). -/
opaque txDataAtReset : Nat → Byte

/-- The transmit shift register of instance `i` at reset: unspecified (10_state.md R39, U15). -/
opaque shDataAtReset : Nat → Byte

/-- The `b`-th number among those that are not `a`: every number but `a`, as `b` ranges over all. -/
def otherThan (a b : Nat) : Nat :=
  if b < a then b else b + 1

/-- `VEC_ID[i]` of the reset state: three pairwise distinct values (R11) and any such three, as
`vecPart` ranges over all. -/
def vecId : Fin 3 → Nat
  | 0 => vecPart 0
  | 1 => otherThan (vecPart 0) (vecPart 1)
  | 2 =>
    let a := vecPart 0
    let b := otherThan a (vecPart 1)
    otherThan (max a b) (otherThan (min a b) (vecPart 2))

/-- The descriptor of instance `i` in the reset state: exactly one instance has the boot guard, the
one at `BOOT_PORT` (R7). -/
def descriptor (i : Fin 3) : Descriptor where
  bootGuardEn := i == bootPort
  defaultTxPin := rxPin i + BitVec.ofNat 8 ((pinGap i).val + 1)
  defaultRxPin := rxPin i
  vecId := vecId i

/-- The three descriptors of the reset state (`NUM_UART = 3`, R6). -/
def descriptors : List Descriptor :=
  [descriptor 0, descriptor 1, descriptor 2]

/-- The parameters of the reset state: the spec's defaults `N = 64` (R4), `GUARD_TICKS = 1000` and
`TICK = 1 ms` (R8). -/
def params : Params where
  iw := 6
  guardTicks := 1000
  tickMicros := 1000
  fClk := fClk

end Config

end Sys2Proof
end

