-- ==== Sys2Proof/Syntax.lean ====
section
/-! DEFINITION. The operations of the core: one constructor for each of the 23 rows of
spec/opcode_table.json, with the operands its rule names (30_encoding.md R83, R88, R91). -/

namespace Sys2Proof

/-- One operation of one of the core's ports. A host command carries its `INST` field whatever its
value: an absent instance is answered, not undecodable (30_encoding.md R86). -/
inductive Instr where
  /-- `SETPINS`, OP 0x1 (41_controller.md R131). -/
  | setpins (inst : Inst) (txp rxp : Byte)
  /-- `BEGIN`, OP 0x2 (R132, R133): the mode byte `B8` and the baud rate. -/
  | beginUart (inst : Inst) (mode : Byte) (baud : BitVec 32)
  /-- `END`, OP 0x3 (R134). -/
  | endUart (inst : Inst)
  /-- `AVAILABLE`, OP 0x4 (R135). -/
  | available (inst : Inst)
  /-- `PEEK`, OP 0x5 (R136). -/
  | peek (inst : Inst)
  /-- `READ`, OP 0x6 (R137). -/
  | read (inst : Inst)
  /-- `FLUSH`, OP 0x7 (R138). -/
  | flush (inst : Inst)
  /-- `WRITECOMPLETE`, OP 0x8 (R139). -/
  | writecomplete (inst : Inst)
  /-- `WRITE`, OP 0x9 (R140): the byte `B8`. -/
  | write (inst : Inst) (byte : Byte)
  /-- `ATTACH`, OP 0xA (R142). -/
  | attach (inst : Inst)
  /-- `DETACH`, OP 0xB (R143). -/
  | detach (inst : Inst)
  /-- `BOOL`, OP 0xC (R141). -/
  | bool (inst : Inst)
  /-- `BUF_STORE`, BOP 0 (40_buffer.md R112), on the buffer whose port the word arrives on. -/
  | bufStore (b : BufId) (din : Byte)
  /-- `BUF_READ`, BOP 1 (R113). -/
  | bufRead (b : BufId)
  /-- `BUF_PEEK`, BOP 2 (R114). -/
  | bufPeek (b : BufId)
  /-- `BUF_AVAIL`, BOP 3 (R115). -/
  | bufAvail (b : BufId)
  /-- `BUF_ISFULL`, BOP 4 (R116). -/
  | bufIsfull (b : BufId)
  /-- `BUF_CLEAR`, BOP 5 (R117). -/
  | bufClear (b : BufId)
  /-- `DISPATCH`, EC 0x1 (42_dispatch.md R174). -/
  | dispatch (inst : Inst)
  /-- `RX_ARRIVE`, EC 0x2 (43_environment_timer.md R191). -/
  | rxArrive (inst : Inst) (byte : Byte) (keep : Bool)
  /-- `TX_LOAD`, EC 0x3 (R192). -/
  | txLoad (inst : Inst)
  /-- `TX_SHIFT_DONE`, EC 0x4 (R193). -/
  | txShiftDone (inst : Inst)
  /-- `TICK`, EC 0x5 (R194). -/
  | tick
  deriving DecidableEq, Repr

/-- The three input ports (30_encoding.md R80). -/
inductive Port where
  | host
  | buffer
  | event
  deriving DecidableEq, Repr

/-- The port an operation arrives on (30_encoding.md R80, R83, R88, R91). -/
def Instr.port : Instr → Port
  | .setpins .. | .beginUart .. | .endUart _ | .available _ | .peek _ | .read _ | .flush _
  | .writecomplete _ | .write .. | .attach _ | .detach _ | .bool _ => .host
  | .bufStore .. | .bufRead _ | .bufPeek _ | .bufAvail _ | .bufIsfull _ | .bufClear _ => .buffer
  | .dispatch _ | .rxArrive .. | .txLoad _ | .txShiftDone _ | .tick => .event

/-- The instance an operation acts on; `TICK` acts on the guard counters of all. -/
def Instr.inst? : Instr → Option Inst
  | .setpins i _ _ | .beginUart i _ _ | .endUart i | .available i | .peek i | .read i | .flush i
  | .writecomplete i | .write i _ | .attach i | .detach i | .bool i => some i
  | .bufStore b _ | .bufRead b | .bufPeek b | .bufAvail b | .bufIsfull b | .bufClear b => some b.inst
  | .dispatch i | .rxArrive i _ _ | .txLoad i | .txShiftDone i => some i
  | .tick => none

end Sys2Proof
end

