-- ==== Sys2Proof/Machine/State.lean ====
section
/-! DEFINITION. The state of the core (10_state.md), as plain data, and its reset value
(70_reset_and_hazards.md R240). -/

namespace Sys2Proof.Machine

/-- The lifecycle states of a controller (10_state.md R28). `configuring` is held only inside the
`BEGIN` step. -/
inductive Life where
  | idle
  | configuring
  | active
  deriving DecidableEq, Repr

/-- Word length, 7 or 8 data bits (R41). -/
inductive WordLen where
  | seven
  | eight
  deriving DecidableEq, Repr

/-- Parity (R41). -/
inductive Parity where
  | none
  | even
  | odd
  deriving DecidableEq, Repr

/-- Stop bits, 1 or 2 (R41). -/
inductive StopBits where
  | one
  | two
  deriving DecidableEq, Repr

/-- The slots of one buffer that a `STORE` has written since reset, as (slot, byte) pairs in strictly
rising order of slot. A slot that is not listed reads as its unspecified reset contents (R23, log 4). -/
abbrev Memory := List Host.Cell

/-- One circular byte buffer (R23 to R25). The indices hold values in `0 .. N-1`. -/
structure Buf where
  mem : Memory
  w : Nat
  r : Nat
  deriving DecidableEq, Repr

/-- The controller registers `CTL[i]` (R28 to R32). -/
structure Ctl where
  life : Life
  txPin : Byte
  rxPin : Byte
  baud : BitVec 32
  mode : Byte
  cbAttached : Bool
  deriving DecidableEq, Repr

/-- The peripheral register block `PER[i]` (R33 to R42). -/
structure Per where
  clkEn : Bool
  rxIrqEn : Bool
  txIrqEn : Bool
  rxReady : Bool
  rxData : Byte
  txEmpty : Bool
  txData : Byte
  txComplete : Bool
  shBusy : Bool
  shData : Byte
  brr : BitVec 32
  wl : WordLen
  par : Parity
  stop : StopBits
  txPinApplied : Byte
  rxPinApplied : Byte
  deriving DecidableEq, Repr

/-- One UART instance: its descriptor, which no step writes, and its state (R22). -/
structure Uart where
  desc : Descriptor
  ctl : Ctl
  per : Per
  rxb : Buf
  txb : Buf
  /-- `GRD[i].cnt` (R43). Without `BOOT_GUARD_EN[i]` the counter does not exist: this field is then 0
  and no rule reads or writes it (log 10). -/
  grdCnt : Nat
  /-- `WIRE[i]`, oldest first (R45). -/
  wire : List Byte
  deriving DecidableEq, Repr

/-- A response to a host command, `{ecode[3:0], value[31:0]}` (30_encoding.md R82). -/
structure Resp where
  ecode : BitVec 4
  value : BitVec 32
  deriving DecidableEq, Repr

/-- Which agent moves next (00_scope.md R12), with the word it brings where it brings one. -/
inductive Turn where
  /-- The host: it issues the command at the head of `State.hostCmds`, or goes on waiting with it. -/
  | host
  /-- Interrupt vector `v` fires: the router selects the dispatcher (42_dispatch.md R170). -/
  | vector (v : Nat)
  /-- The event port receives a word: a dispatcher or environment step (30_encoding.md R90). -/
  | event (w : EvtWord)
  /-- The test bench drives the port of buffer `b` (30_encoding.md R80(b)). -/
  | bench (b : BufId) (w : BufWord)
  deriving DecidableEq, Repr

/-- What the last step was, of the outcomes of R13 that have a state: taken, or not enabled. -/
inductive Report where
  | none
  | taken
  | notEnabled
  deriving DecidableEq, Repr

/-- The whole state (10_state.md R22, R45), the parameters (00_scope.md R4 to R11), and the model's own
`hostCmds`, `turns` and `last`. `NUM_UART` is the number of instances. -/
structure State where
  params : Params
  uarts : List Uart
  /-- `CBLOG`, pairs (instance, byte), oldest first (R45). -/
  cblog : List (Nat × Byte)
  /-- The responses to host commands, oldest first (R45, D38). -/
  resps : List Resp
  /-- The responses of the buffer port, oldest first (30_encoding.md R80, R89). -/
  bufResps : List (BitVec 32)
  /-- The commands the host has to issue, oldest first. The head is pending at the host port until it
  is answered (41_controller.md R130). The model's own field (log 5). -/
  hostCmds : List CmdWord
  /-- The order of agents the scheduler has chosen (20_memory.md R70), next first. The model's own
  field (log 5). -/
  turns : List Turn
  /-- Whether the last step was taken (00_scope.md R13). The model's own field (log 6). -/
  last : Report
  deriving DecidableEq, Repr

/-- `NUM_UART` (00_scope.md R6). -/
abbrev State.numUart (s : State) : Nat := s.uarts.length

/-- The faults of the model. The core itself raises no trap, panic or halt (60_exceptions.md R211). -/
inductive Fault where
  /-- Raised by the six `BUF_*` operations on a buffer that is not one of the `2 * NUM_UART` buffers
  (20_memory.md R60, R61): an access to storage that does not exist. Safe: the model stops. -/
  | noSuchBuffer (b : BufId)
  deriving DecidableEq, Repr

/-- Inputs that are outside the model (00_scope.md R13: a refused input has no transition). -/
inductive Refusal where
  /-- Raised by `exec` for an operation with no meaning yet. Safe: the model stops. -/
  | notModelled (mnemonic : String)
  /-- Raised by the step on an event word with a reserved code (30_encoding.md R93). Safe: refused as
  the spec says. -/
  | reservedEvent (ec : BitVec 4)
  /-- Raised by the step and by the events' meanings on an event other than `TICK` for an instance
  that is not there (R93). Safe: refused as the spec says. -/
  | absentInstance (inst : Inst)
  /-- Raised by the step on a vector that maps to no instance, which never fires (42_dispatch.md R170).
  Safe: the model stops. -/
  | unmappedVector (v : Nat)
  /-- Raised by the step when no agent is given a turn: no input is offered (log 5). Safe: the model
  stops. -/
  | noTurn
  deriving DecidableEq, Repr

/-- An empty buffer as at reset: no slot written, both indices 0 (10_state.md R23 to R25). -/
def Buf.reset : Buf where
  mem := []
  w := 0
  r := 0

/-- `CTL[i]` at reset (R28, R30 to R32): mode 8N1. -/
def Ctl.reset (d : Descriptor) : Ctl where
  life := .idle
  txPin := d.defaultTxPin
  rxPin := d.defaultRxPin
  baud := 0
  mode := 0x06
  cbAttached := false

/-- `PER[i]` at reset (R33 to R42). The three data registers are unspecified: free values (log 4). -/
def Per.reset (i : Nat) (d : Descriptor) : Per where
  clkEn := false
  rxIrqEn := false
  txIrqEn := false
  rxReady := false
  rxData := Config.rxDataAtReset i
  txEmpty := true
  txData := Config.txDataAtReset i
  txComplete := true
  shBusy := false
  shData := Config.shDataAtReset i
  brr := 0
  wl := .eight
  par := .none
  stop := .one
  txPinApplied := d.defaultTxPin
  rxPinApplied := d.defaultRxPin

/-- Instance `i` at reset (R22, 70_reset_and_hazards.md R241). -/
def Uart.reset (i : Nat) (d : Descriptor) : Uart where
  desc := d
  ctl := Ctl.reset d
  per := Per.reset i d
  rxb := Buf.reset
  txb := Buf.reset
  grdCnt := 0
  wire := []

/-- The reset state of a core with the given parameters, one instance a descriptor
(70_reset_and_hazards.md R240, R242). No input is offered yet. -/
def State.resetWith (p : Params) (ds : List Descriptor) : State where
  params := p
  uarts := ds.mapIdx Uart.reset
  cblog := []
  resps := []
  bufResps := []
  hostCmds := []
  turns := []
  last := .none

/-- The machine right after reset, with the spec's default parameters and uninterpreted OPEN ones
(log 2, log 3). -/
def State.reset : State :=
  State.resetWith Config.params Config.descriptors

end Sys2Proof.Machine
end

