-- ==== Sys2Proof/Machine/Ops.lean ====
section
/-! DEFINITION. The operations every meaning is made of: buffer storage and the six buffer operations
(40_buffer.md), access to an instance, and the ways a step ends (00_scope.md R13, R15). -/

namespace Sys2Proof.Machine

/-! ### Buffer storage -/

/-- The canonical form of a buffer's storage: slots strictly rising. An unlisted slot holds no written
byte, so no entry is redundant, and equal storages are equal lists. -/
abbrev Memory.wf (m : Memory) : Prop :=
  m.Pairwise (fun a b => a.1 < b.1)

/-- The byte a `STORE` last wrote to slot `k` since reset, if any has. -/
def Memory.byteAt? (m : Memory) (k : Nat) : Option Byte :=
  match m with
  | [] => none
  | (k', v) :: rest => if k = k' then some v else Memory.byteAt? rest k

/-- `MemWrite((B, k), 1, v)` (00_scope.md R15): slot `k` alone now holds `v`. -/
def Memory.put (m : Memory) (k : Nat) (v : Byte) : Memory :=
  match m with
  | [] => [(k, v)]
  | (k', v') :: rest =>
    if k < k' then (k, v) :: (k', v') :: rest
    else if k = k' then (k, v) :: rest
    else (k', v') :: Memory.put rest k v

/-- `MemRead((B, k), 1)` (R15). A slot not written since reset holds its unspecified reset contents
(10_state.md R23, log 4). -/
def slotByte (id : BufId) (m : Memory) (k : Nat) : Byte :=
  (m.byteAt? k).getD (Config.storageAtReset id k)

/-! ### Index arithmetic and the derived predicates -/

/-- `N = 2^IW`, the number of slots of every buffer (00_scope.md R4). -/
def slots (p : Params) : Nat := 2 ^ p.iw

/-- `a +N b` (00_scope.md R14, 40_buffer.md R118). -/
def addN (n a b : Nat) : Nat := (a + b) % n

/-- `a -N b`, the difference modulo `N` (R14, R118). -/
def subN (n a b : Nat) : Nat := (a + (n - b % n)) % n

/-- `empty(B)` (10_state.md R27). -/
def isEmpty (b : Buf) : Bool := b.w == b.r

/-- `full(B)` (R27). -/
def isFull (n : Nat) (b : Buf) : Bool := addN n b.w 1 == b.r

/-- `count(B)` (R27). -/
def count (n : Nat) (b : Buf) : Nat := subN n b.w b.r

/-! ### The six buffer operations (40_buffer.md) -/

/-- `B.STORE(v)` (R112): the buffer afterwards, and whether the byte was accepted. A full buffer drops
it and stays as it is. -/
def store (n : Nat) (b : Buf) (v : Byte) : Buf × Bool :=
  if isFull n b then (b, false)
  else ({ b with mem := b.mem.put b.w v, w := addN n b.w 1 }, true)

/-- `B.PEEK()` (R114): the oldest byte, if there is one. -/
def peekByte (id : BufId) (b : Buf) : Option Byte :=
  if isEmpty b then none else some (slotByte id b.mem b.r)

/-- `B.READ()` (R113): the buffer without its oldest byte, and that byte, if there is one. -/
def readByte (id : BufId) (n : Nat) (b : Buf) : Buf × Option Byte :=
  if isEmpty b then (b, none)
  else ({ b with r := addN n b.r 1 }, some (slotByte id b.mem b.r))

/-- `B.CLEAR()` (R117): the indices only. -/
def clear (b : Buf) : Buf := { b with w := 0, r := 0 }

/-- The queued bytes, oldest first: slots `r, r +N 1, ...`, `count(B)` of them (10_state.md R27(g)). -/
def contents (id : BufId) (n : Nat) (b : Buf) : List Byte :=
  (List.range (count n b)).map fun k => slotByte id b.mem (addN n b.r k)

/-! ### BUFRESP (30_encoding.md R89) -/

/-- `zext_32` of a Boolean result: `BUFRESP[0]`, or a `bool` or `size` response value. -/
def bitValue (v : Bool) : BitVec 32 := if v then 1 else 0

/-- `BUFRESP` of `BUF_READ` and `BUF_PEEK`: `{23'b0, 1'b1, v}`, or 0 for "empty". -/
def byteResp (v : Option Byte) : BitVec 32 :=
  match v with
  | some v => 0#23 ++ 1#1 ++ v
  | none => 0

/-- `BUFRESP` of a reserved operation (30_encoding.md R94). -/
def reservedBufResp : BitVec 32 := 0x80000000

/-! ### Instances and their buffers -/

/-- Instance `i`, if the core has it (`i < NUM_UART`). -/
def State.uart? (s : State) (i : Inst) : Option Uart := s.uarts[i.toNat]?

/-- The state with instance `i` as given. -/
def State.setUart (s : State) (i : Inst) (u : Uart) : State :=
  { s with uarts := s.uarts.set i.toNat u }

/-- `RXB` or `TXB` of an instance. -/
def Uart.buf (u : Uart) (side : Side) : Buf :=
  match side with
  | .rx => u.rxb
  | .tx => u.txb

/-- The instance with one of its buffers as given. -/
def Uart.setBuf (u : Uart) (side : Side) (b : Buf) : Uart :=
  match side with
  | .rx => { u with rxb := b }
  | .tx => { u with txb := b }

/-- The byte at storage address `(B, k)`, where the buffer exists (20_memory.md R61). -/
def State.byteAt? (s : State) (id : BufId) (k : Nat) : Option Byte :=
  (s.uart? id.inst).map fun u => slotByte id (u.buf id.side).mem k

/-! ### How a step ends -/

/-- What a step answers. -/
abbrev Out := Host.Outcome State Fault Refusal

/-- The command pending at the host port is answered and leaves it: its response joins the response
stream (00_scope.md R15, 30_encoding.md R82). -/
def answer (s : State) (r : Resp) : State :=
  { s with resps := s.resps ++ [r], hostCmds := s.hostCmds.tail, last := .taken }

/-- `respond(v)`: the command executed, with value `v` (R15). -/
def respond (s : State) (v : BitVec 32) : State := answer s ⟨0, v⟩

/-- `raise Err(code)`: the core's only exception. `ecode = code`, value 0, and no state changed: no
register is saved, nothing is masked and control goes nowhere else (R15, 60_exceptions.md R210). -/
def raiseErr (s : State) (code : BitVec 4) : State := answer s ⟨code, 0⟩

/-- `E_RESERVED_OP` (60_exceptions.md R210). -/
def eReservedOp : BitVec 4 := 1
/-- `E_BAD_INSTANCE` (R210). -/
def eBadInstance : BitVec 4 := 2
/-- `E_BAD_MODE` (R210). -/
def eBadMode : BitVec 4 := 3
/-- `E_BAD_BAUD` (R210). -/
def eBadBaud : BitVec 4 := 4
/-- `E_NOT_ACTIVE` (R210). -/
def eNotActive : BitVec 4 := 5

/-- The buffer port answers (30_encoding.md R80(b), R89). -/
def bufAnswer (s : State) (w : BitVec 32) : State :=
  { s with bufResps := s.bufResps ++ [w], last := .taken }

/-- An event step was taken. -/
def taken (s : State) : State := { s with last := .taken }

/-- The agent whose turn it is has no enabled step (00_scope.md R13): nothing of the core changes, and
a host command stays pending at its port. The turn passes (log 6). -/
def notEnabled (s : State) : State := { s with last := .notEnabled }

/-- The common check of every host command (41_controller.md R130): an instance out of range is
answered `E_BAD_INSTANCE`; otherwise the command runs on the instance. -/
def onCommand (i : Inst) (s : State) (run : Uart → State) : Out :=
  match s.uart? i with
  | none => .next (raiseErr s eBadInstance)
  | some u => .next (run u)

/-- An event of instance `i`: refused for an absent instance (30_encoding.md R93), taken where it is
enabled, and no step where it is not (00_scope.md R13). -/
def onEvent (i : Inst) (s : State) (enabled : Uart → Bool) (move : Uart → State) : Out :=
  match s.uart? i with
  | none => .refused (.absentInstance i)
  | some u => if enabled u then .next (taken (move u)) else .next (notEnabled s)

/-- An operation of the test bench on buffer `id`: the buffer afterwards and the BUFRESP. -/
def onBuffer (id : BufId) (s : State) (run : Buf → Buf × BitVec 32) : Out :=
  match s.uart? id.inst with
  | none => .fault (.noSuchBuffer id)
  | some u =>
    let (b, w) := run (u.buf id.side)
    .next (bufAnswer (s.setUart id.inst (u.setBuf id.side b)) w)

end Sys2Proof.Machine
end

