-- ==== Sys2Proof/Machine/Buffer.lean ====
section
/-! DEFINITION. The buffer-port operations (40_buffer.md R112 to R117) as the test bench drives them
(30_encoding.md R80(b)), with the BUFRESP of R89. -/

namespace Sys2Proof.Machine

/-- `BUF_STORE` (R112). -/
def execBufStore (id : BufId) (din : Byte) (s : State) : Out :=
  onBuffer id s fun b =>
    let (b', accepted) := store (slots s.params) b din
    (b', bitValue accepted)

/-- `BUF_READ` (R113). -/
def execBufRead (id : BufId) (s : State) : Out :=
  onBuffer id s fun b =>
    let (b', v) := readByte id (slots s.params) b
    (b', byteResp v)

/-- `BUF_PEEK` (R114). -/
def execBufPeek (id : BufId) (s : State) : Out :=
  onBuffer id s fun b => (b, byteResp (peekByte id b))

/-- `BUF_AVAIL` (R115). -/
def execBufAvail (id : BufId) (s : State) : Out :=
  onBuffer id s fun b => (b, BitVec.ofNat 32 (count (slots s.params) b))

/-- `BUF_ISFULL` (R116). -/
def execBufIsfull (id : BufId) (s : State) : Out :=
  onBuffer id s fun b => (b, bitValue (isFull (slots s.params) b))

/-- `BUF_CLEAR` (R117). -/
def execBufClear (id : BufId) (s : State) : Out :=
  onBuffer id s fun b => (clear b, 0)

end Sys2Proof.Machine
end

