-- ==== Sys2Proof/Machine/Flags.lean ====
section
/-! DEFINITION. The conditions read from an instance's status flags, enables and counters: none is
state (10_state.md R28, R29, R44; 42_dispatch.md R171; 41_controller.md R138; 43_environment_timer.md
R190 to R194). -/

namespace Sys2Proof.Machine

/-- The 2-bit encoding of `CTL.life` (10_state.md R28). -/
def lifeCode (l : Life) : BitVec 2 :=
  match l with
  | .idle => 0
  | .configuring => 1
  | .active => 2

/-- `configured(i)` (10_state.md R29). -/
def configured (u : Uart) : Bool := u.ctl.life == .active

/-- `guard_active(i) = BOOT_GUARD_EN[i] and GRD[i].cnt < GUARD_TICKS`, a strict comparison
(10_state.md R44, 43_environment_timer.md R195). -/
def guardActive (p : Params) (u : Uart) : Bool :=
  u.desc.bootGuardEn && decide (u.grdCnt < p.guardTicks)

/-- `rx_ev(i)`: RX-data-ready, enabled (42_dispatch.md R171). -/
def rxEv (u : Uart) : Bool := u.per.rxReady && u.per.rxIrqEn

/-- `tx_ev(i)`: TX-register-empty, enabled (R171). -/
def txEv (u : Uart) : Bool := u.per.txEmpty && u.per.txIrqEn

/-- `irq(i)`: the interrupt request, and the enabling condition of `DISPATCH` (R171). -/
def irq (u : Uart) : Bool := u.per.clkEn && (rxEv u || txEv u)

/-- What `FLUSH` waits for and `WRITECOMPLETE` reports: the TX buffer empty and transmit-complete set
(41_controller.md R138, R139). -/
def txIdle (u : Uart) : Bool := isEmpty u.txb && u.per.txComplete

/-- The enabling condition of `RX_ARRIVE` (43_environment_timer.md R190). -/
def rxArriveEnabled (u : Uart) : Bool := u.per.clkEn

/-- The enabling condition of `TX_LOAD` (R192). -/
def txLoadEnabled (u : Uart) : Bool := u.per.clkEn && !u.per.txEmpty && !u.per.shBusy

/-- The enabling condition of `TX_SHIFT_DONE` (R193). -/
def txShiftDoneEnabled (u : Uart) : Bool := u.per.clkEn && u.per.shBusy

/-- One tick of the boot-guard counter, saturating at `GUARD_TICKS` (R194). -/
def guardTick (p : Params) (cnt : Nat) : Nat :=
  if cnt < p.guardTicks then cnt + 1 else cnt

end Sys2Proof.Machine
end

