-- ==== Sys2Proof/Machine/Environment.lean ====
section
/-! DEFINITION. The serial line, the shift logic and the clock (43_environment_timer.md). -/

namespace Sys2Proof.Machine

/-- `RX_ARRIVE` (R191): on an overrun `keep` says which of the two bytes survives. -/
def execRxArrive (i : Inst) (byte : Byte) (keep : Bool) (s : State) : Out :=
  onEvent i s rxArriveEnabled fun u =>
    let kept := u.per.rxReady && keep
    s.setUart i { u with per := { u.per with
      rxData := if kept then u.per.rxData else byte
      rxReady := true } }

/-- `TX_LOAD` (R192): the shift register takes the waiting byte. -/
def execTxLoad (i : Inst) (s : State) : Out :=
  onEvent i s txLoadEnabled fun u =>
    s.setUart i { u with per := { u.per with
      shData := u.per.txData, shBusy := true, txEmpty := true } }

/-- `TX_SHIFT_DONE` (R193): the byte is on the line; transmission is complete if none waits. -/
def execTxShiftDone (i : Inst) (s : State) : Out :=
  onEvent i s txShiftDoneEnabled fun u =>
    s.setUart i { u with
      wire := u.wire ++ [u.per.shData]
      per := { u.per with
        shBusy := false
        txComplete := if u.per.txEmpty then true else u.per.txComplete } }

/-- One tick on one instance: only a boot guard counts (R194). -/
def tickUart (p : Params) (u : Uart) : Uart :=
  if u.desc.bootGuardEn then { u with grdCnt := guardTick p u.grdCnt } else u

/-- `TICK` (R194): always enabled. -/
def execTick (s : State) : Out :=
  .next (taken { s with uarts := s.uarts.map (tickUart s.params) })

end Sys2Proof.Machine
end

