-- ==== Sys2Proof/Machine/Operands.lean ====
section
/-! DEFINITION. The one operand with an encoding of its own: the UART mode byte (30_encoding.md R84,
R85, R95), and the values host commands answer with (R82). -/

namespace Sys2Proof.Machine

/-- The frame configuration a mode byte stands for (10_state.md R41). -/
structure Frame where
  wl : WordLen
  par : Parity
  stop : StopBits
  deriving DecidableEq, Repr

/-- The ten accepted mode bytes (30_encoding.md R85). -/
def modeBytes : List Byte :=
  [0x06, 0x0E, 0x24, 0x26, 0x2C, 0x2E, 0x34, 0x36, 0x3C, 0x3E]

/-- `MODE_OK(m)` (R85). -/
def modeOk (m : Byte) : Bool := modeBytes.contains m

/-- The parity that `m[5:4]` stands for; 0b01 stands for none of them (R84). -/
def parityOf (bits : BitVec 2) : Option Parity :=
  match bits with
  | 0b00#2 => some .none
  | 0b10#2 => some .even
  | 0b11#2 => some .odd
  | _ => none

/-- The frame of an accepted mode byte (R84), and nothing for any other (R95). -/
def decodeMode (m : Byte) : Option Frame :=
  if modeOk m then
    (parityOf (m.extractLsb' 4 2)).map fun par =>
      { wl := if m.getLsbD 1 then .eight else .seven
        par := par
        stop := if m.getLsbD 3 then .two else .one }
  else none

/-- `begin(baud)` takes 8N1 (R97). -/
def defaultMode : Byte := 0x06

/-- The value of `peek` and `read`: the byte, or `-1` when there is none (R82). -/
def byteOrMinusOne (v : Option Byte) : BitVec 32 :=
  match v with
  | some v => v.zeroExtend 32
  | none => 0xFFFFFFFF

end Sys2Proof.Machine
end

