-- ==== Sys2Proof/Machine/Lifecycle.lean ====
section
/-! DEFINITION. Lifecycle, callback control and liveness commands (41_controller.md sections 2
and 5). -/

namespace Sys2Proof.Machine

/-- The peripheral status that reset, `BEGIN` and `END` leave: nothing received, nothing to send. A byte
in `tx_data` or in the shift register is discarded (R133, R134, D20). -/
def idleStatus (per : Per) : Per :=
  { per with rxReady := false, txEmpty := true, txComplete := true, shBusy := false }

/-- `SETPINS` (R131): the requested pins; the routed ones change only at the next `BEGIN`. -/
def execSetpins (i : Inst) (txp rxp : Byte) (s : State) : Out :=
  onCommand i s fun u =>
    respond (s.setUart i { u with ctl := { u.ctl with txPin := txp, rxPin := rxp } }) 0

/-- The sequence of an accepted `BEGIN` on the instance (R133). The transient `CONFIGURING` state is
overwritten by the last assignment, as in the rule. -/
def beginSequence (p : Params) (u : Uart) (mode : Byte) (f : Frame) (baud : BitVec 32) : Uart :=
  let u := { u with ctl := { u.ctl with life := .configuring } }
  let u := { u with per := { u.per with wl := f.wl, par := f.par, stop := f.stop } }
  let u := { u with per := { u.per with
    txPinApplied := u.ctl.txPin, rxPinApplied := u.ctl.rxPin, clkEn := true } }
  let u := { u with per := { u.per with brr := Config.baudDiv p.fClk baud } }
  let u := { u with ctl := { u.ctl with baud := baud, mode := mode } }
  let u := { u with rxb := clear u.rxb, txb := clear u.txb }
  let u := { u with per := idleStatus u.per }
  let u := { u with per := { u.per with txIrqEn := false, rxIrqEn := true } }
  let u := { u with grdCnt := if u.desc.bootGuardEn then 0 else u.grdCnt }
  { u with ctl := { u.ctl with life := .active } }

/-- `BEGIN` (R132, R133): the mode is checked before the baud rate; a failed check changes nothing. -/
def execBegin (i : Inst) (mode : Byte) (baud : BitVec 32) (s : State) : Out :=
  onCommand i s fun u =>
    match decodeMode mode with
    | none => raiseErr s eBadMode
    | some f =>
      if baud = 0 then raiseErr s eBadBaud
      else respond (s.setUart i (beginSequence s.params u mode f baud)) 0

/-- The sequence of `END` on the instance (R134): the interrupt lines first. -/
def endSequence (u : Uart) : Uart :=
  let u := { u with per := { u.per with rxIrqEn := false, txIrqEn := false } }
  let u := { u with per := { u.per with clkEn := false } }
  let u := { u with rxb := clear u.rxb, txb := clear u.txb }
  let u := { u with per := idleStatus u.per }
  { u with ctl := { u.ctl with life := .idle } }

/-- `END` (R134). -/
def execEnd (i : Inst) (s : State) : Out :=
  onCommand i s fun u => respond (s.setUart i (endSequence u)) 0

/-- `BOOL` (R141): always 1. -/
def execBool (i : Inst) (s : State) : Out :=
  onCommand i s fun _ => respond s 1

/-- `ATTACH` (R142): callback mode; bytes already buffered stay. -/
def execAttach (i : Inst) (s : State) : Out :=
  onCommand i s fun u =>
    respond (s.setUart i { u with ctl := { u.ctl with cbAttached := true } }) 0

/-- `DETACH` (R143): buffered mode. -/
def execDetach (i : Inst) (s : State) : Out :=
  onCommand i s fun u =>
    respond (s.setUart i { u with ctl := { u.ctl with cbAttached := false } }) 0

end Sys2Proof.Machine
end

