-- ==== Sys2Proof/Machine/Receive.lean ====
section
/-! DEFINITION. Receive-side commands (41_controller.md section 3). -/

namespace Sys2Proof.Machine

/-- `AVAILABLE` (R135): the number of received bytes waiting. -/
def execAvailable (i : Inst) (s : State) : Out :=
  onCommand i s fun u => respond s (BitVec.ofNat 32 (count (slots s.params) u.rxb))

/-- `PEEK` (R136): the oldest received byte, or -1. -/
def execPeek (i : Inst) (s : State) : Out :=
  onCommand i s fun u => respond s (byteOrMinusOne (peekByte ⟨i, .rx⟩ u.rxb))

/-- `READ` (R137): removes and returns the oldest received byte, or returns -1. -/
def execRead (i : Inst) (s : State) : Out :=
  onCommand i s fun u =>
    let (rxb, v) := readByte ⟨i, .rx⟩ (slots s.params) u.rxb
    respond (s.setUart i { u with rxb := rxb }) (byteOrMinusOne v)

end Sys2Proof.Machine
end

