-- ==== Sys2Proof/Machine/Router.lean ====
section
/-! DEFINITION. The interrupt dispatch router, the receive engine and the transmit engine
(42_dispatch.md). -/

namespace Sys2Proof.Machine

/-- The router's map, the inverse of `VEC_ID` (R170). It is a function of the descriptors, which no
step writes. -/
def route (s : State) (v : Nat) : Option Inst :=
  (s.uarts.findIdx? fun u => u.desc.vecId == v).map (BitVec.ofNat 4)

/-- The receive engine (R172): the instance afterwards, and the byte passed to the callback, if one is.
Reading the data register clears `rx_ready`; a full `RXB` drops the byte. -/
def receivePart (p : Params) (u : Uart) : Uart × Option Byte :=
  let v := u.per.rxData
  let u := { u with per := { u.per with rxReady := false } }
  if u.ctl.cbAttached then (u, some v)
  else ({ u with rxb := (store (slots p) u.rxb v).1 }, none)

/-- The transmit engine (R173): one queued byte to the transmit register; the transmit-interrupt line
off once the TX buffer is empty. -/
def transmitPart (p : Params) (i : Inst) (u : Uart) : Uart :=
  let u := match readByte ⟨i, .tx⟩ (slots p) u.txb with
    | (txb, some v) =>
      { u with txb := txb, per := { u.per with txData := v, txEmpty := false, txComplete := false } }
    | (_, none) => u
  if isEmpty u.txb then { u with per := { u.per with txIrqEn := false } } else u

/-- One ISR entry (R174) on the instance: both events sampled at entry, both serviced, receive first. -/
def serviceBoth (p : Params) (i : Inst) (u : Uart) : Uart × Option Byte :=
  let doRx := rxEv u
  let doTx := txEv u
  let (u, delivered) := if doRx then receivePart p u else (u, none)
  (if doTx then transmitPart p i u else u, delivered)

/-- `DISPATCH` (R174): enabled iff `irq(i)`. Nothing is saved, masked or restored (60_exceptions.md
R218, R219). -/
def execDispatch (i : Inst) (s : State) : Out :=
  onEvent i s irq fun u =>
    let (u', delivered) := serviceBoth s.params i u
    { s.setUart i u' with cblog := s.cblog ++ (delivered.map fun v => (i.toNat, v)).toList }

end Sys2Proof.Machine
end

