-- ==== Sys2Proof/Machine/Transmit.lean ====
section
/-! DEFINITION. Transmit-side commands (41_controller.md section 4), with the boot-guard check. -/

namespace Sys2Proof.Machine

/-- `FLUSH` (R138): answers once the transmitter is idle; until then it holds, the one command that
does, and stays pending at the host port (00_scope.md R13, log 7). -/
def execFlush (i : Inst) (s : State) : Out :=
  onCommand i s fun u => if txIdle u then respond s 0 else notEnabled s

/-- `WRITECOMPLETE` (R139): whether a `FLUSH` would return at once. -/
def execWritecomplete (i : Inst) (s : State) : Out :=
  onCommand i s fun u => respond s (bitValue (txIdle u))

/-- `WRITE` (R140): refused before `BEGIN`, discarded in the guard window; else the transmit-interrupt
line is enabled, then the store is attempted. -/
def execWrite (i : Inst) (byte : Byte) (s : State) : Out :=
  onCommand i s fun u =>
    if u.ctl.life ≠ .active then raiseErr s eNotActive
    else if guardActive s.params u then respond s 0
    else
      let u := { u with per := { u.per with txIrqEn := true } }
      let (txb, accepted) := store (slots s.params) u.txb byte
      respond (s.setUart i { u with txb := txb }) (bitValue accepted)

end Sys2Proof.Machine
end

