-- ==== Sys2Proof/Machine/Dispatch.lean ====
section
/-! DEFINITION. The meaning of every operation: one arm per constructor of Instr. -/

namespace Sys2Proof.Machine

def exec (i : Instr) (s : State) : Host.Outcome State Fault Refusal :=
  match i with
  | .setpins inst txp rxp => Sys2Proof.Machine.execSetpins inst txp rxp s
  | .beginUart inst mode baud => Sys2Proof.Machine.execBegin inst mode baud s
  | .endUart inst => Sys2Proof.Machine.execEnd inst s
  | .available inst => Sys2Proof.Machine.execAvailable inst s
  | .peek inst => Sys2Proof.Machine.execPeek inst s
  | .read inst => Sys2Proof.Machine.execRead inst s
  | .flush inst => Sys2Proof.Machine.execFlush inst s
  | .writecomplete inst => Sys2Proof.Machine.execWritecomplete inst s
  | .write inst byte => Sys2Proof.Machine.execWrite inst byte s
  | .attach inst => Sys2Proof.Machine.execAttach inst s
  | .detach inst => Sys2Proof.Machine.execDetach inst s
  | .bool inst => Sys2Proof.Machine.execBool inst s
  | .bufStore b din => Sys2Proof.Machine.execBufStore b din s
  | .bufRead b => Sys2Proof.Machine.execBufRead b s
  | .bufPeek b => Sys2Proof.Machine.execBufPeek b s
  | .bufAvail b => Sys2Proof.Machine.execBufAvail b s
  | .bufIsfull b => Sys2Proof.Machine.execBufIsfull b s
  | .bufClear b => Sys2Proof.Machine.execBufClear b s
  | .dispatch inst => Sys2Proof.Machine.execDispatch inst s
  | .rxArrive inst byte keep => Sys2Proof.Machine.execRxArrive inst byte keep s
  | .txLoad inst => Sys2Proof.Machine.execTxLoad inst s
  | .txShiftDone inst => Sys2Proof.Machine.execTxShiftDone inst s
  | .tick => Sys2Proof.Machine.execTick s

end Sys2Proof.Machine
end

