-- ==== Sys2Proof/WellFormed.lean ====
section
/-! DEFINITION. Which operations a core of `NUM_UART` instances has. -/

namespace Sys2Proof

/-- Operation `i` exists on a core of `numUart` instances. Two checks:
* an event other than `TICK` names an instance that is there (30_encoding.md R93);
* a buffer operation is on one of the `2 * NUM_UART` buffers (20_memory.md R60, R61).
A host command exists whatever its fields hold: an instance out of range, a bad mode or a zero baud
rate is answered by an error response (R86, R132). -/
def Instr.wellFormed (numUart : Nat) : Instr → Bool
  | .dispatch i | .rxArrive i _ _ | .txLoad i | .txShiftDone i => i.toNat < numUart
  | .bufStore b _ | .bufRead b | .bufPeek b | .bufAvail b | .bufIsfull b | .bufClear b =>
    b.inst.toNat < numUart
  | .tick => true
  | .setpins .. | .beginUart .. | .endUart _ | .available _ | .peek _ | .read _ | .flush _
  | .writecomplete _ | .write .. | .attach _ | .detach _ | .bool _ => true

end Sys2Proof
end

