-- ==== Sys2Proof/Decode.lean ====
section
/-! DEFINITION. The decoder of the three ports, total on every word and rejecting by name, and the
encoder written from the same field tables (30_encoding.md R81, R83, R88, R90, R91, R98). -/

namespace Sys2Proof

/-- A word on the port it arrives on. The port alone fixes the length and the format
(30_encoding.md R80): the three code spaces overlap. -/
inductive PortWord where
  | cmd (w : CmdWord)
  | buf (b : BufId) (w : BufWord)
  | evt (w : EvtWord)
  deriving DecidableEq, Repr

/-- What a word decodes to, exactly one of R98's four kinds: a named operation, a reserved host
command (answered by an error response, R92), a reserved buffer operation (answered by 0x80000000,
R94), or a refused event (R93, for one of two reasons). -/
inductive Decoded where
  | op (i : Instr)
  | reservedOp
  | reservedBop
  | reservedEvent (ec : BitVec 4)
  | absentInstance (inst : Inst)
  deriving DecidableEq, Repr

/-- The host port's decoder (R81, R83, R92): `OP = CMD[3:0]` alone selects the command, and a
command takes only the fields its rule names (R87). -/
def decodeCmd (w : CmdWord) : Decoded :=
  let inst : Inst := w.extractLsb' 4 4
  let b8 : Byte := w.extractLsb' 8 8
  match w.extractLsb' 0 4 with
  | 0x1#4 => .op (.setpins inst (w.extractLsb' 16 8) (w.extractLsb' 24 8))
  | 0x2#4 => .op (.beginUart inst b8 (w.extractLsb' 32 32))
  | 0x3#4 => .op (.endUart inst)
  | 0x4#4 => .op (.available inst)
  | 0x5#4 => .op (.peek inst)
  | 0x6#4 => .op (.read inst)
  | 0x7#4 => .op (.flush inst)
  | 0x8#4 => .op (.writecomplete inst)
  | 0x9#4 => .op (.write inst b8)
  | 0xA#4 => .op (.attach inst)
  | 0xB#4 => .op (.detach inst)
  | 0xC#4 => .op (.bool inst)
  | _ => .reservedOp

/-- The buffer port's decoder (R88, R94): `BOP = BUFOP[2:0]`; bits 7:3 are ignored. -/
def decodeBuf (b : BufId) (w : BufWord) : Decoded :=
  match w.extractLsb' 0 3 with
  | 0#3 => .op (.bufStore b (w.extractLsb' 8 8))
  | 1#3 => .op (.bufRead b)
  | 2#3 => .op (.bufPeek b)
  | 3#3 => .op (.bufAvail b)
  | 4#3 => .op (.bufIsfull b)
  | 5#3 => .op (.bufClear b)
  | _ => .reservedBop

/-- An event of instance `inst`, where the core has it (R93). -/
def eventOn (numUart : Nat) (inst : Inst) (i : Instr) : Decoded :=
  if inst.toNat < numUart then .op i else .absentInstance inst

/-- The event port's decoder (R90, R91, R93): `EC = EVT[3:0]`; a reserved code is refused first, then
an instance out of range, except for `TICK`, which ignores `INST`. -/
def decodeEvt (numUart : Nat) (w : EvtWord) : Decoded :=
  let inst : Inst := w.extractLsb' 4 4
  match w.extractLsb' 0 4 with
  | 0x1#4 => eventOn numUart inst (.dispatch inst)
  | 0x2#4 => eventOn numUart inst (.rxArrive inst (w.extractLsb' 8 8) (w.getLsbD 16))
  | 0x3#4 => eventOn numUart inst (.txLoad inst)
  | 0x4#4 => eventOn numUart inst (.txShiftDone inst)
  | 0x5#4 => .op .tick
  | ec => .reservedEvent ec

/-- The decoding procedure of R98, on a core of `numUart` instances. -/
def decode (numUart : Nat) : PortWord → Decoded
  | .cmd w => decodeCmd w
  | .buf b w => decodeBuf b w
  | .evt w => decodeEvt numUart w

/-- The host command word of R81 from its fields, `{BAUD, RXP, TXP, B8, INST, OP}`. -/
def cmdWord (op inst : BitVec 4) (b8 txp rxp : Byte) (baud : BitVec 32) : CmdWord :=
  baud ++ rxp ++ txp ++ b8 ++ inst ++ op

/-- The buffer-port word of R88, `{DIN, 5'b0, BOP}`. -/
def bufWord (bop : BitVec 3) (din : Byte) : BufWord :=
  din ++ 0#5 ++ bop

/-- The event word of R90, `{15'b0, KEEP, BYTE, INST, EC}`. -/
def evtWord (ec inst : BitVec 4) (byte : Byte) (keep : Bool) : EvtWord :=
  0#15 ++ BitVec.ofBool keep ++ byte ++ inst ++ ec

/-- The canonical word of an operation: its fields in place, every field it does not use zero
(R87). -/
def encode : Instr → PortWord
  | .setpins i txp rxp => .cmd (cmdWord 0x1 i 0 txp rxp 0)
  | .beginUart i mode baud => .cmd (cmdWord 0x2 i mode 0 0 baud)
  | .endUart i => .cmd (cmdWord 0x3 i 0 0 0 0)
  | .available i => .cmd (cmdWord 0x4 i 0 0 0 0)
  | .peek i => .cmd (cmdWord 0x5 i 0 0 0 0)
  | .read i => .cmd (cmdWord 0x6 i 0 0 0 0)
  | .flush i => .cmd (cmdWord 0x7 i 0 0 0 0)
  | .writecomplete i => .cmd (cmdWord 0x8 i 0 0 0 0)
  | .write i byte => .cmd (cmdWord 0x9 i byte 0 0 0)
  | .attach i => .cmd (cmdWord 0xA i 0 0 0 0)
  | .detach i => .cmd (cmdWord 0xB i 0 0 0 0)
  | .bool i => .cmd (cmdWord 0xC i 0 0 0 0)
  | .bufStore b din => .buf b (bufWord 0 din)
  | .bufRead b => .buf b (bufWord 1 0)
  | .bufPeek b => .buf b (bufWord 2 0)
  | .bufAvail b => .buf b (bufWord 3 0)
  | .bufIsfull b => .buf b (bufWord 4 0)
  | .bufClear b => .buf b (bufWord 5 0)
  | .dispatch i => .evt (evtWord 0x1 i 0 false)
  | .rxArrive i byte keep => .evt (evtWord 0x2 i byte keep)
  | .txLoad i => .evt (evtWord 0x3 i 0 false)
  | .txShiftDone i => .evt (evtWord 0x4 i 0 false)
  | .tick => .evt (evtWord 0x5 0 0 false)

/-- The port a PortWord stands on. -/
def PortWord.port : PortWord → Port
  | .cmd _ => .host
  | .buf .. => .buffer
  | .evt _ => .event

/-- The buffer whose port a table word of the BUFOP format is put on: RXB[0]. The word names no
buffer (R88). DESIGN CHOICE, log 8. -/
def tableBuffer : BufId := ⟨0, .rx⟩

/-- A word of spec/opcode_table.json on the port its length names: 64 bits a command, 32 an event,
16 a buffer operation (R80). A word given with fewer bits than any port has names no port; it goes to
the host port, or, where its host code is reserved, to the first of the buffer and the event port on
which its code is not. DESIGN CHOICE, log 8. -/
def tableWord (nbits w : Nat) : PortWord :=
  if 32 < nbits then .cmd (BitVec.ofNat 64 w)
  else if 16 < nbits then .evt (BitVec.ofNat 32 w)
  else if 8 < nbits then .buf tableBuffer (BitVec.ofNat 16 w)
  else if decodeCmd (BitVec.ofNat 64 w) ≠ .reservedOp then .cmd (BitVec.ofNat 64 w)
  else if decodeBuf tableBuffer (BitVec.ofNat 16 w) ≠ .reservedBop then
    .buf tableBuffer (BitVec.ofNat 16 w)
  else .evt (BitVec.ofNat 32 w)

/-- The instruction the decoder reads from a word of spec/opcode_table.json, on the reset state's
core of three instances. -/
def decodeTableWord (nbits w : Nat) : Option Instr :=
  match decode 3 (tableWord nbits w) with
  | .op i => some i
  | .reservedOp | .reservedBop | .reservedEvent _ | .absentInstance _ => none

end Sys2Proof
end

