-- ==== Sys2Proof/Machine/Ports.lean ====
section
/-! DEFINITION. What the agent whose turn it is asks for: the words of the ports, decoded on this
core, and the router's selection (30_encoding.md R80, R98; 42_dispatch.md R170). -/

namespace Sys2Proof.Machine

/-- What a turn asks of the core. -/
inductive Asked where
  /-- A named operation. -/
  | op (i : Instr)
  /-- A reserved host command (30_encoding.md R92). -/
  | reservedOp
  /-- A reserved buffer operation (R94). -/
  | reservedBop
  /-- The host has no command to issue: its agent has no step (43_environment_timer.md R196(e)). -/
  | nothing
  /-- An input that is outside the model. -/
  | outside (why : Refusal)
  deriving DecidableEq, Repr

/-- What a decoded word asks. -/
def askedOf (d : Decoded) : Asked :=
  match d with
  | .op i => .op i
  | .reservedOp => .reservedOp
  | .reservedBop => .reservedBop
  | .reservedEvent ec => .outside (.reservedEvent ec)
  | .absentInstance i => .outside (.absentInstance i)

/-- What turn `t` asks in state `s`: the command pending at the host port, the word an event or the
bench brings, or the `DISPATCH` of the instance the router selects for a vector. -/
def asked (t : Turn) (s : State) : Asked :=
  match t with
  | .host =>
    match s.hostCmds with
    | [] => .nothing
    | w :: _ => askedOf (decode s.numUart (.cmd w))
  | .vector v =>
    match route s v with
    | none => .outside (.unmappedVector v)
    | some i => .op (.dispatch i)
  | .event w => askedOf (decode s.numUart (.evt w))
  | .bench b w => askedOf (decode s.numUart (.buf b w))

/-- The state in which word `w` is the next one its port's agent brings. -/
def offer (s : State) (w : PortWord) : State :=
  match w with
  | .cmd w => { s with hostCmds := w :: s.hostCmds, turns := .host :: s.turns }
  | .buf b w => { s with turns := .bench b w :: s.turns }
  | .evt w => { s with turns := .event w :: s.turns }

end Sys2Proof.Machine
end

