-- ==== Sys2Proof/Machine/Step.lean ====
section
/-! DEFINITION. One step of the core: the agent that the schedule names takes its step
(00_scope.md R12, R13; 20_memory.md R70). -/

namespace Sys2Proof.Machine

/-- One atomic step. The turn leaves the schedule; then the operation asked for runs. A reserved host
command is answered `E_RESERVED_OP` (30_encoding.md R92), a reserved buffer operation 0x80000000 (R94),
and an input outside the model is refused (R93). -/
def step (s : State) : Host.Outcome State Fault Refusal :=
  match s.turns with
  | [] => .refused .noTurn
  | t :: rest =>
    let s' := { s with turns := rest }
    match asked t s' with
    | .op i => exec i s'
    | .reservedOp => .next (raiseErr s' eReservedOp)
    | .reservedBop => .next (bufAnswer s' reservedBufResp)
    | .nothing => .next (notEnabled s')
    | .outside why => .refused why

/-- The state in which a word of spec/opcode_table.json is the next one offered, on the port its
length names, and its agent has the next turn (log 5, log 8). -/
def State.withFetchWord (s : State) (nbits w : Nat) : State :=
  offer s (tableWord nbits w)

end Sys2Proof.Machine
end

