-- ==== Sys2Proof/Safety.lean ====
section
/-! DEFINITION. The terms the statements use: well-formed states, the invariants of 10_state.md R27
and R46, what an answered command or a taken event leaves unchanged, the bytes on their way to the
line, and runs of buffer operations. -/

namespace Sys2Proof.Machine

/-! ### Well-formed states -/

/-- A buffer with `n` slots in canonical form, its indices in `0 .. n-1` (R24, R25), and every queued
slot written by a `STORE` since reset (R27(g), R23). -/
abbrev bufWf (n : Nat) (b : Buf) : Prop :=
  b.mem.wf ∧ (∀ c ∈ b.mem, c.1 < n) ∧ b.w < n ∧ b.r < n ∧
    ∀ k < count n b, (b.mem.byteAt? (addN n b.r k)).isSome = true

/-- An instance whose buffers are well formed and whose guard counter is in `0 .. GUARD_TICKS` (R43);
without a boot guard the counter does not exist and its field is 0. -/
abbrev uartWf (p : Params) (u : Uart) : Prop :=
  bufWf (slots p) u.rxb ∧ bufWf (slots p) u.txb ∧ u.grdCnt ≤ p.guardTicks ∧
    (u.desc.bootGuardEn = false → u.grdCnt = 0)

/-- The parameters keep the bounds of 00_scope.md: `N` and `GUARD_TICKS` (R4, R8), `NUM_UART` (R6),
distinct default pins (R10) and pairwise distinct vectors (R11). -/
abbrev State.paramsWf (s : State) : Prop :=
  s.params.wf ∧ 1 ≤ s.numUart ∧ s.numUart ≤ 16 ∧
    (∀ u ∈ s.uarts, u.desc.defaultTxPin ≠ u.desc.defaultRxPin) ∧
    (s.uarts.map fun u => u.desc.vecId).Nodup

/-- A well-formed state. Every step keeps it, the test bench's too. -/
abbrev State.wf (s : State) : Prop :=
  s.paramsWf ∧ ∀ u ∈ s.uarts, uartWf s.params u

/-- The invariants (I1) to (I6) of 10_state.md R46 on one instance. -/
abbrev uartInv (p : Params) (u : Uart) : Prop :=
  u.ctl.life ≠ .configuring ∧
  (u.ctl.life = .idle →
    u.per.clkEn = false ∧ u.per.rxIrqEn = false ∧ u.per.txIrqEn = false ∧
    isEmpty u.rxb = true ∧ isEmpty u.txb = true ∧ u.per.rxReady = false ∧
    u.per.txEmpty = true ∧ u.per.txComplete = true ∧ u.per.shBusy = false) ∧
  (u.ctl.life = .active → u.per.clkEn = true ∧ u.per.rxIrqEn = true) ∧
  (isEmpty u.txb = false → u.per.txIrqEn = true) ∧
  (u.per.txComplete = true → u.per.txEmpty = true ∧ u.per.shBusy = false) ∧
  (count (slots p) u.rxb ≤ slots p - 1 ∧ count (slots p) u.txb ≤ slots p - 1)

/-- R46 on every instance, in a well-formed state. -/
abbrev State.inv (s : State) : Prop :=
  s.wf ∧ ∀ u ∈ s.uarts, uartInv s.params u

/-- Two more facts of every reachable instance, which the rules give beside R46: an empty register and
an idle shift register mean transmission is complete (43_environment_timer.md R192, R193), and in the
guard window the transmitter has nothing to do (R195: no byte can have been queued since the `BEGIN`). -/
abbrev uartTxInv (p : Params) (u : Uart) : Prop :=
  (u.per.txEmpty = true → u.per.shBusy = false → u.per.txComplete = true) ∧
  (guardActive p u = true →
    isEmpty u.txb = true ∧ u.per.txIrqEn = false ∧ u.per.txEmpty = true ∧ u.per.shBusy = false)

/-- R46 and the two transmit facts, in a well-formed state. -/
abbrev State.txInv (s : State) : Prop :=
  s.inv ∧ ∀ u ∈ s.uarts, uartTxInv s.params u

/-- The turns of the agents of 00_scope.md R12. The test bench is none of them. -/
def Turn.ofAgent (t : Turn) : Bool :=
  match t with
  | .host | .vector _ | .event _ => true
  | .bench _ _ => false

/-! ### What a step leaves unchanged -/

/-- From `s` to `t`, of the core only instance `i` changed, to `u'`: the parameters, the other
instances, the callback log and both response streams are as before, and so is the schedule. -/
def OnlyUart (s t : State) (i : Inst) (u' : Uart) : Prop :=
  t.params = s.params ∧ t.numUart = s.numUart ∧ t.uart? i = some u' ∧
    (∀ j : Nat, j ≠ i.toNat → t.uarts[j]? = s.uarts[j]?) ∧ t.turns = s.turns

/-- The command is answered `r` and only instance `i` changed, to `u'`: the response joins the stream
and the command leaves the host port; nothing reaches the callback log or the buffer port. -/
def AnsweredWith (s t : State) (i : Inst) (u' : Uart) (r : Resp) : Prop :=
  OnlyUart s t i u' ∧ t.resps = s.resps ++ [r] ∧ t.hostCmds = s.hostCmds.tail ∧
    t.cblog = s.cblog ∧ t.bufResps = s.bufResps ∧ t.last = .taken

/-- The event is taken and only instance `i` changed, to `u'`, with `delivered` appended to `CBLOG`. -/
def TakenWith (s t : State) (i : Inst) (u' : Uart) (delivered : List (Nat × Byte)) : Prop :=
  OnlyUart s t i u' ∧ t.cblog = s.cblog ++ delivered ∧ t.resps = s.resps ∧
    t.hostCmds = s.hostCmds ∧ t.bufResps = s.bufResps ∧ t.last = .taken

/-- The buffer port answers `w` and only buffer `id` of instance `u` changed, to `b`. -/
def BenchedWith (s t : State) (id : BufId) (u : Uart) (b : Buf) (w : BitVec 32) : Prop :=
  OnlyUart s t id.inst (u.setBuf id.side b) ∧ t.bufResps = s.bufResps ++ [w] ∧
    t.resps = s.resps ∧ t.hostCmds = s.hostCmds ∧ t.cblog = s.cblog ∧ t.last = .taken

/-- An error response with code `code`: nothing of the core changed, and the command left its port
(60_exceptions.md R210). -/
def Errored (s t : State) (code : BitVec 4) : Prop :=
  t.params = s.params ∧ t.uarts = s.uarts ∧ t.cblog = s.cblog ∧ t.bufResps = s.bufResps ∧
    t.resps = s.resps ++ [⟨code, 0⟩] ∧ t.hostCmds = s.hostCmds.tail ∧ t.turns = s.turns

/-- The storage address an operation stores to, where it stores (20_memory.md R61): the write index of
the buffer its `STORE` is on, in the state it runs in. -/
def storeAddress (i : Instr) (s : State) : Option (BufId × Nat) :=
  match i with
  | .write j _ => (s.uart? j).map fun u => (⟨j, .tx⟩, u.txb.w)
  | .dispatch j => (s.uart? j).map fun u => (⟨j, .rx⟩, u.rxb.w)
  | .bufStore b _ => (s.uart? b.inst).map fun u => (b, (u.buf b.side).w)
  | .setpins .. | .beginUart .. | .endUart _ | .available _ | .peek _ | .read _ | .flush _
  | .writecomplete _ | .attach _ | .detach _ | .bool _ | .bufRead _ | .bufPeek _ | .bufAvail _
  | .bufIsfull _ | .bufClear _ | .rxArrive .. | .txLoad _ | .txShiftDone _ | .tick => none

/-- Nothing of the core changed: parameters, instances, logs and response streams. -/
def SameCore (s t : State) : Prop :=
  t.params = s.params ∧ t.uarts = s.uarts ∧ t.cblog = s.cblog ∧ t.resps = s.resps ∧
    t.bufResps = s.bufResps

/-! ### Byte streams (20_memory.md R71) -/

/-- The bytes instance `i` has put on the line and those on their way, oldest first: `WIRE[i]`, the
shift register, the transmit register and the TX buffer. -/
def txStream (p : Params) (i : Inst) (u : Uart) : List Byte :=
  u.wire ++ (if u.per.shBusy then [u.per.shData] else []) ++
    (if u.per.txEmpty then [] else [u.per.txData]) ++ contents ⟨i, .tx⟩ (slots p) u.txb

/-- How many `DISPATCH`, `TX_LOAD` and `TX_SHIFT_DONE` steps the bytes of an instance still need to
reach the line: three a queued byte, two for the register, one for the shift register
(70_reset_and_hazards.md R259). -/
def txWork (p : Params) (u : Uart) : Nat :=
  3 * count (slots p) u.txb + (if u.per.txEmpty then 0 else 2) + (if u.per.shBusy then 1 else 0)

/-! ### Runs -/

/-- `n` operations of one kind, each on the state the one before left. -/
def repeatExec (i : Instr) (n : Nat) (s : State) : Out :=
  match n with
  | 0 => .next s
  | n + 1 =>
    match exec i s with
    | .next t => repeatExec i n t
    | .fault r => .fault r
    | .refused r => .refused r

/-- The operations of a list, each on the state the one before left. -/
def execAll (is : List Instr) (s : State) : Out :=
  match is with
  | [] => .next s
  | i :: is =>
    match exec i s with
    | .next t => execAll is t
    | .fault r => .fault r
    | .refused r => .refused r

/-- The operations of one buffer (40_buffer.md). -/
inductive BufOp where
  | store (v : Byte)
  | read
  | peek
  | avail
  | isfull
  | clear
  deriving DecidableEq, Repr

/-- A buffer with the bytes it accepted and the bytes its reads returned since the last `CLEAR`, each
oldest first. -/
structure BufRun where
  buf : Buf
  accepted : List Byte
  returned : List Byte

/-- One buffer operation, recorded. -/
def BufRun.next (id : BufId) (n : Nat) (x : BufRun) (op : BufOp) : BufRun :=
  match op with
  | .store v =>
    let (b, ok) := Machine.store n x.buf v
    { x with buf := b, accepted := if ok then x.accepted ++ [v] else x.accepted }
  | .read =>
    let (b, v) := readByte id n x.buf
    { x with buf := b, returned := x.returned ++ v.toList }
  | .peek | .avail | .isfull => x
  | .clear => { buf := Machine.clear x.buf, accepted := [], returned := [] }

/-- A sequence of buffer operations from buffer `b`. -/
def runBuf (id : BufId) (n : Nat) (b : Buf) (ops : List BufOp) : BufRun :=
  ops.foldl (BufRun.next id n) { buf := b, accepted := [], returned := [] }

end Sys2Proof.Machine
end

