-- ==== Sys2Proof/Certificates/Slice0/Obligations.lean ====
section
/-! DEFINITION. The statements for the provers. Each docstring names the rule of spec/ it formalises,
or says that it is derived or the model's own choice. -/

open Sys2Proof Sys2Proof.Machine

/-! ### Encodings (30_encoding.md) -/

/-- Derived from R81, R83, R88, R90, R91: decoding the canonical word of an operation that the core has
gives it back, with every operand. -/
def Obligations.DecodeEncodeRoundTrip : Prop :=
  ∀ (n : Nat) (i : Instr), i.wellFormed n = true → decode n (encode i) = .op i

/-- R98 with the field and code tables of R81, R83, R88, R90, R91 and the reserved codes of R92 to R94:
what every word of every port decodes to. -/
def Obligations.DecodingFollowsTheTables : Prop :=
  (∀ (n : Nat) (w : CmdWord),
    let op := w.extractLsb' 0 4
    let inst := w.extractLsb' 4 4
    let b8 := w.extractLsb' 8 8
    (op ∈ [0x0#4, 0xD#4, 0xE#4, 0xF#4] → decode n (.cmd w) = .reservedOp) ∧
    (op = 0x1#4 → decode n (.cmd w) =
      .op (.setpins inst (w.extractLsb' 16 8) (w.extractLsb' 24 8))) ∧
    (op = 0x2#4 → decode n (.cmd w) = .op (.beginUart inst b8 (w.extractLsb' 32 32))) ∧
    (op = 0x3#4 → decode n (.cmd w) = .op (.endUart inst)) ∧
    (op = 0x4#4 → decode n (.cmd w) = .op (.available inst)) ∧
    (op = 0x5#4 → decode n (.cmd w) = .op (.peek inst)) ∧
    (op = 0x6#4 → decode n (.cmd w) = .op (.read inst)) ∧
    (op = 0x7#4 → decode n (.cmd w) = .op (.flush inst)) ∧
    (op = 0x8#4 → decode n (.cmd w) = .op (.writecomplete inst)) ∧
    (op = 0x9#4 → decode n (.cmd w) = .op (.write inst b8)) ∧
    (op = 0xA#4 → decode n (.cmd w) = .op (.attach inst)) ∧
    (op = 0xB#4 → decode n (.cmd w) = .op (.detach inst)) ∧
    (op = 0xC#4 → decode n (.cmd w) = .op (.bool inst))) ∧
  (∀ (n : Nat) (b : BufId) (w : BufWord),
    let bop := w.extractLsb' 0 3
    (bop = 0#3 → decode n (.buf b w) = .op (.bufStore b (w.extractLsb' 8 8))) ∧
    (bop = 1#3 → decode n (.buf b w) = .op (.bufRead b)) ∧
    (bop = 2#3 → decode n (.buf b w) = .op (.bufPeek b)) ∧
    (bop = 3#3 → decode n (.buf b w) = .op (.bufAvail b)) ∧
    (bop = 4#3 → decode n (.buf b w) = .op (.bufIsfull b)) ∧
    (bop = 5#3 → decode n (.buf b w) = .op (.bufClear b)) ∧
    (bop ∈ [6#3, 7#3] → decode n (.buf b w) = .reservedBop)) ∧
  (∀ (n : Nat) (w : EvtWord),
    let ec := w.extractLsb' 0 4
    let inst := w.extractLsb' 4 4
    (ec ∉ [0x1#4, 0x2#4, 0x3#4, 0x4#4, 0x5#4] → decode n (.evt w) = .reservedEvent ec) ∧
    (ec = 0x5#4 → decode n (.evt w) = .op .tick) ∧
    (ec ∈ [0x1#4, 0x2#4, 0x3#4, 0x4#4] → n ≤ inst.toNat →
      decode n (.evt w) = .absentInstance inst) ∧
    (ec = 0x1#4 → inst.toNat < n → decode n (.evt w) = .op (.dispatch inst)) ∧
    (ec = 0x2#4 → inst.toNat < n →
      decode n (.evt w) = .op (.rxArrive inst (w.extractLsb' 8 8) (w.getLsbD 16))) ∧
    (ec = 0x3#4 → inst.toNat < n → decode n (.evt w) = .op (.txLoad inst)) ∧
    (ec = 0x4#4 → inst.toNat < n → decode n (.evt w) = .op (.txShiftDone inst)))

/-- R87: a command's word decodes the same whatever its unused fields hold. All commands use `OP` and
`INST`; `BEGIN` also `B8` and `BAUD`, `WRITE` also `B8`, `SETPINS` also `TXP` and `RXP` (R81). -/
def Obligations.UnusedCommandFieldsIgnored : Prop :=
  ∀ (n : Nat) (v w : CmdWord),
    v.extractLsb' 0 4 = w.extractLsb' 0 4 → v.extractLsb' 4 4 = w.extractLsb' 4 4 →
    (w.extractLsb' 0 4 ∈ [0x2#4, 0x9#4] → v.extractLsb' 8 8 = w.extractLsb' 8 8) →
    (w.extractLsb' 0 4 = 0x1#4 →
      v.extractLsb' 16 8 = w.extractLsb' 16 8 ∧ v.extractLsb' 24 8 = w.extractLsb' 24 8) →
    (w.extractLsb' 0 4 = 0x2#4 → v.extractLsb' 32 32 = w.extractLsb' 32 32) →
    decode n (.cmd v) = decode n (.cmd w)

/-- Words written out from the field tables of R81, R88 and R90 (95_test_vectors.md sections 1 and 2),
one or more of each family. -/
def Obligations.SpecWordsDecode : Prop :=
  decode 3 (.cmd 0x000000000A090001) = .op (.setpins 0 9 10) ∧
  decode 3 (.cmd 0x0001C20000000612) = .op (.beginUart 1 0x06 115200) ∧
  decode 3 (.cmd 0x0000000000000013) = .op (.endUart 1) ∧
  decode 3 (.cmd 0x0000000000000016) = .op (.read 1) ∧
  decode 3 (.cmd 0x0000000000004819) = .op (.write 1 0x48) ∧
  decode 3 (.cmd 0xFFFFFFFFFFFFFF0C) = .op (.bool 0) ∧
  decode 3 (.buf ⟨1, .tx⟩ 0x4100) = .op (.bufStore ⟨1, .tx⟩ 0x41) ∧
  decode 3 (.buf ⟨1, .tx⟩ 0x00F9) = .op (.bufRead ⟨1, .tx⟩) ∧
  decode 3 (.evt 0x00000011) = .op (.dispatch 1) ∧
  decode 3 (.evt 0x00013212) = .op (.rxArrive 1 0x32 true) ∧
  decode 3 (.evt 0x000000F5) = .op .tick

/-- R84, R85: the ten accepted mode bytes with their frames, no other byte, and the default. -/
def Obligations.ModeByteTable : Prop :=
  decodeMode 0x06 = some ⟨.eight, .none, .one⟩ ∧ decodeMode 0x0E = some ⟨.eight, .none, .two⟩ ∧
  decodeMode 0x24 = some ⟨.seven, .even, .one⟩ ∧ decodeMode 0x26 = some ⟨.eight, .even, .one⟩ ∧
  decodeMode 0x2C = some ⟨.seven, .even, .two⟩ ∧ decodeMode 0x2E = some ⟨.eight, .even, .two⟩ ∧
  decodeMode 0x34 = some ⟨.seven, .odd, .one⟩ ∧ decodeMode 0x36 = some ⟨.eight, .odd, .one⟩ ∧
  decodeMode 0x3C = some ⟨.seven, .odd, .two⟩ ∧ decodeMode 0x3E = some ⟨.eight, .odd, .two⟩ ∧
  (∀ m : Byte,
    m ∉ [0x06#8, 0x0E#8, 0x24#8, 0x26#8, 0x2C#8, 0x2E#8, 0x34#8, 0x36#8, 0x3C#8, 0x3E#8] →
    decodeMode m = none) ∧
  defaultMode = 0x06

/-! ### The step -/

/-- Derived from R80, R98, R170: the step takes the turn off the schedule and runs the operation that
the word on the turn's port decodes to, or the `DISPATCH` the router selects. That the schedule is data
of the state is the model's choice (log 5). -/
def Obligations.StepRunsDecodedOperation : Prop :=
  ∀ (s : State) (rest : List Turn) (i : Instr),
    (∀ w ws, s.turns = .host :: rest → s.hostCmds = w :: ws → decode s.numUart (.cmd w) = .op i →
      step s = exec i { s with turns := rest }) ∧
    (∀ w, s.turns = .event w :: rest → decode s.numUart (.evt w) = .op i →
      step s = exec i { s with turns := rest }) ∧
    (∀ b w, s.turns = .bench b w :: rest → decode s.numUart (.buf b w) = .op i →
      step s = exec i { s with turns := rest }) ∧
    (∀ v j, s.turns = .vector v :: rest → route s v = some j →
      step s = exec (.dispatch j) { s with turns := rest })

/-- R92, R94: a command word with a reserved `OP` is answered `E_RESERVED_OP` (code 1), a buffer-port
word with a reserved `BOP` is answered `0x80000000`, and no state changes. -/
def Obligations.ReservedCodesAnswered : Prop :=
  (∀ (s : State) (rest : List Turn) (w : CmdWord) (ws : List CmdWord),
    s.turns = .host :: rest → s.hostCmds = w :: ws →
    w.extractLsb' 0 4 ∈ [0x0#4, 0xD#4, 0xE#4, 0xF#4] →
    ∃ t, step s = .next t ∧ SameCore { s with resps := s.resps ++ [⟨1, 0⟩] } t ∧
      t.hostCmds = ws ∧ t.turns = rest) ∧
  (∀ (s : State) (rest : List Turn) (b : BufId) (w : BufWord),
    s.turns = .bench b w :: rest → w.extractLsb' 0 3 ∈ [6#3, 7#3] →
    ∃ t, step s = .next t ∧ SameCore { s with bufResps := s.bufResps ++ [0x80000000] } t ∧
      t.hostCmds = s.hostCmds ∧ t.turns = rest)

/-- R93: a reserved event code, and an event other than `TICK` of an absent instance, is refused. -/
def Obligations.ReservedEventRefused : Prop :=
  ∀ (s : State) (rest : List Turn) (w : EvtWord), s.turns = .event w :: rest →
    (w.extractLsb' 0 4 ∉ [0x1#4, 0x2#4, 0x3#4, 0x4#4, 0x5#4] →
      step s = .refused (.reservedEvent (w.extractLsb' 0 4))) ∧
    (w.extractLsb' 0 4 ∈ [0x1#4, 0x2#4, 0x3#4, 0x4#4] → s.numUart ≤ (w.extractLsb' 4 4).toNat →
      step s = .refused (.absentInstance (w.extractLsb' 4 4)))

/-- R170 with R11: vector `VEC_ID[j]` selects the `DISPATCH` of instance `j`; a vector of no instance
is refused (that it never fires is the spec's word; the refusal is log 5's form of it). -/
def Obligations.RouterInvertsVectorIdentities : Prop :=
  ∀ (s : State) (rest : List Turn) (v : Nat), s.paramsWf → s.turns = .vector v :: rest →
    (∀ j u, s.uart? j = some u → u.desc.vecId = v →
      step s = exec (.dispatch j) { s with turns := rest }) ∧
    ((∀ u ∈ s.uarts, u.desc.vecId ≠ v) → step s = .refused (.unmappedVector v))

/-! ### Common checks and errors (41_controller.md R130, 60_exceptions.md R210) -/

/-- R86: every host command on an absent instance is answered `E_BAD_INSTANCE` (code 2) and changes no
state; a command word that names one is answered so by the step, unless its `OP` is reserved. -/
def Obligations.AbsentInstanceAnswered : Prop :=
  (∀ (i : Instr) (s : State) (j : Inst), i.port = .host → i.inst? = some j →
    s.numUart ≤ j.toNat → ∃ t, exec i s = .next t ∧ Errored s t 2) ∧
  (∀ (s : State) (rest : List Turn) (w : CmdWord) (ws : List CmdWord),
    s.turns = .host :: rest → s.hostCmds = w :: ws →
    s.numUart ≤ (w.extractLsb' 4 4).toNat →
    ∃ t, step s = .next t ∧
      Errored { s with turns := rest } t
        (if w.extractLsb' 0 4 ∈ [0x0#4, 0xD#4, 0xE#4, 0xF#4] then 1 else 2))

/-- R210: a response of a host command with an error code has value 0 and one of the codes 2 to 5, and
nothing of the core changed. (Code 1 is the step's own answer to a reserved `OP`.) -/
def Obligations.ErrorResponseChangesNothing : Prop :=
  ∀ (i : Instr) (s t : State) (r : Resp), i.port = .host → exec i s = .next t →
    t.resps = s.resps ++ [r] → r.ecode ≠ 0 →
    r.value = 0 ∧ r.ecode ∈ [2#4, 3#4, 4#4, 5#4] ∧ Errored s t r.ecode

/-- R82, R130, R138: every host command but `FLUSH` is answered exactly once and leaves its port;
`FLUSH` is answered once, or nothing of the core changes and it stays at its port. -/
def Obligations.EveryCommandAnsweredOnce : Prop :=
  ∀ (i : Instr) (s : State), i.port = .host →
    ∃ t, exec i s = .next t ∧
      ((∃ r, t.resps = s.resps ++ [r] ∧ t.hostCmds = s.hostCmds.tail ∧ t.last = .taken) ∨
        (∃ j, i = .flush j) ∧ SameCore s t ∧ t.hostCmds = s.hostCmds ∧ t.last = .notEnabled)

/-! ### Host commands (41_controller.md) -/

/-- R131: the requested pins are stored and nothing else changes; the routed pins stay. -/
def Obligations.SetpinsStoresRequestedPins : Prop :=
  ∀ (s : State) (j : Inst) (u : Uart) (txp rxp : Byte), s.uart? j = some u →
    ∃ t, exec (.setpins j txp rxp) s = .next t ∧
      AnsweredWith s t j { u with ctl := { u.ctl with txPin := txp, rxPin := rxp } } ⟨0, 0⟩

/-- R133: an accepted `BEGIN` in any lifecycle state, every field it writes, and nothing else. -/
def Obligations.BeginConfiguresAndActivates : Prop :=
  ∀ (s : State) (j : Inst) (u : Uart) (m : Byte) (f : Frame) (baud : BitVec 32),
    s.uart? j = some u → decodeMode m = some f → baud ≠ 0 →
    ∃ t, exec (.beginUart j m baud) s = .next t ∧
      AnsweredWith s t j
        { u with
          ctl := { u.ctl with life := .active, baud := baud, mode := m }
          per := { u.per with
            wl := f.wl, par := f.par, stop := f.stop
            txPinApplied := u.ctl.txPin, rxPinApplied := u.ctl.rxPin
            clkEn := true, brr := Config.baudDiv s.params.fClk baud
            rxReady := false, txEmpty := true, txComplete := true, shBusy := false
            txIrqEn := false, rxIrqEn := true }
          rxb := { u.rxb with w := 0, r := 0 }
          txb := { u.txb with w := 0, r := 0 }
          grdCnt := if u.desc.bootGuardEn then 0 else u.grdCnt } ⟨0, 0⟩

/-- R132: the mode is checked before the baud rate, and a failed check changes nothing. -/
def Obligations.BeginChecksModeThenBaud : Prop :=
  ∀ (s : State) (j : Inst) (u : Uart) (m : Byte) (baud : BitVec 32), s.uart? j = some u →
    (modeOk m = false → ∃ t, exec (.beginUart j m baud) s = .next t ∧ Errored s t 3) ∧
    (modeOk m = true → baud = 0 → ∃ t, exec (.beginUart j m baud) s = .next t ∧ Errored s t 4)

/-- R134: `END` in any lifecycle state, every field it writes, and nothing else. -/
def Obligations.EndDeactivates : Prop :=
  ∀ (s : State) (j : Inst) (u : Uart), s.uart? j = some u →
    ∃ t, exec (.endUart j) s = .next t ∧
      AnsweredWith s t j
        { u with
          ctl := { u.ctl with life := .idle }
          per := { u.per with
            rxIrqEn := false, txIrqEn := false, clkEn := false
            rxReady := false, txEmpty := true, txComplete := true, shBusy := false }
          rxb := { u.rxb with w := 0, r := 0 }
          txb := { u.txb with w := 0, r := 0 } } ⟨0, 0⟩

/-- R135: the number of received bytes, `w -N r`, in 32 bits. -/
def Obligations.AvailableAnswersReceivedCount : Prop :=
  ∀ (s : State) (j : Inst) (u : Uart), s.wf → s.uart? j = some u →
    ∃ t c, exec (.available j) s = .next t ∧ AnsweredWith s t j u ⟨0, c⟩ ∧
      c.toNat = (if u.rxb.r ≤ u.rxb.w then u.rxb.w - u.rxb.r
        else u.rxb.w + slots s.params - u.rxb.r)

/-- R136: the oldest received byte, or -1; nothing changes. -/
def Obligations.PeekAnswersOldestByte : Prop :=
  ∀ (s : State) (j : Inst) (u : Uart), s.uart? j = some u →
    ∃ t, exec (.peek j) s = .next t ∧
      AnsweredWith s t j u
        ⟨0, if u.rxb.w = u.rxb.r then 0xFFFFFFFF
          else (slotByte ⟨j, .rx⟩ u.rxb.mem u.rxb.r).zeroExtend 32⟩

/-- R137: the oldest received byte, which leaves the buffer, or -1 and nothing changes. -/
def Obligations.ReadRemovesOldestByte : Prop :=
  ∀ (s : State) (j : Inst) (u : Uart), s.uart? j = some u →
    (u.rxb.w = u.rxb.r → ∃ t, exec (.read j) s = .next t ∧ AnsweredWith s t j u ⟨0, 0xFFFFFFFF⟩) ∧
    (u.rxb.w ≠ u.rxb.r → ∃ t, exec (.read j) s = .next t ∧
      AnsweredWith s t j { u with rxb := { u.rxb with r := (u.rxb.r + 1) % slots s.params } }
        ⟨0, (slotByte ⟨j, .rx⟩ u.rxb.mem u.rxb.r).zeroExtend 32⟩)

/-- R138: `FLUSH` is answered once the TX buffer is empty and transmit-complete is set. -/
def Obligations.FlushAnsweredWhenTransmitterIdle : Prop :=
  ∀ (s : State) (j : Inst) (u : Uart), s.uart? j = some u →
    u.txb.w = u.txb.r → u.per.txComplete = true →
    ∃ t, exec (.flush j) s = .next t ∧ AnsweredWith s t j u ⟨0, 0⟩

/-- R138, R13: until then it holds: no response, nothing of the core changes, and the command stays at
the host port (that a hold is a turn that passes is the model's choice, log 6 and log 7). -/
def Obligations.FlushHoldsWhileTransmitterBusy : Prop :=
  ∀ (s : State) (j : Inst) (u : Uart), s.uart? j = some u →
    u.txb.w ≠ u.txb.r ∨ u.per.txComplete = false →
    ∃ t, exec (.flush j) s = .next t ∧ SameCore s t ∧ t.hostCmds = s.hostCmds ∧
      t.turns = s.turns ∧ t.last = .notEnabled

/-- R139: the value is 1 exactly when a `FLUSH` in the same state would be answered. -/
def Obligations.WritecompleteForeseesFlush : Prop :=
  ∀ (s : State) (j : Inst) (u : Uart), s.uart? j = some u →
    ∃ t v, exec (.writecomplete j) s = .next t ∧ AnsweredWith s t j u ⟨0, v⟩ ∧
      (v = 0 ∨ v = 1) ∧ (v = 1 ↔ u.txb.w = u.txb.r ∧ u.per.txComplete = true) ∧
      (v = 1 ↔ ∃ t', exec (.flush j) s = .next t' ∧ t'.resps = s.resps ++ [⟨0, 0⟩])

/-- R140: the four outcomes of `WRITE` on an instance that is there. One that is not `ACTIVE` is
answered `E_NOT_ACTIVE` (code 5), and one in the guard window 0, and nothing changes. Otherwise the
transmit-interrupt line is enabled, and the byte is queued at the write index (answer 1, no other byte
of storage changes), or dropped if the buffer is full (answer 0). -/
def Obligations.WriteQueuesOneByte : Prop :=
  ∀ (s : State) (j : Inst) (u : Uart) (v : Byte), s.uart? j = some u →
    (u.ctl.life ≠ .active → ∃ t, exec (.write j v) s = .next t ∧ Errored s t 5) ∧
    (u.ctl.life = .active →
      (u.desc.bootGuardEn = true → u.grdCnt < s.params.guardTicks →
        ∃ t, exec (.write j v) s = .next t ∧ AnsweredWith s t j u ⟨0, 0⟩) ∧
      (u.desc.bootGuardEn = false ∨ s.params.guardTicks ≤ u.grdCnt →
        ((u.txb.w + 1) % slots s.params ≠ u.txb.r →
          ∃ t mem, exec (.write j v) s = .next t ∧
            AnsweredWith s t j
              { u with
                per := { u.per with txIrqEn := true }
                txb := { mem := mem, w := (u.txb.w + 1) % slots s.params, r := u.txb.r } } ⟨0, 1⟩ ∧
            t.byteAt? ⟨j, .tx⟩ u.txb.w = some v ∧
            ∀ id k, (id, k) ≠ (⟨j, .tx⟩, u.txb.w) → t.byteAt? id k = s.byteAt? id k) ∧
        ((u.txb.w + 1) % slots s.params = u.txb.r →
          ∃ t, exec (.write j v) s = .next t ∧
            AnsweredWith s t j { u with per := { u.per with txIrqEn := true } } ⟨0, 0⟩)))

/-- R141 to R143: `BOOL` answers 1; `ATTACH` and `DETACH` write the callback flag alone, so `rx_irq_en`
and `RXB` stay. All in any lifecycle state. -/
def Obligations.BoolAttachAndDetach : Prop :=
  ∀ (s : State) (j : Inst) (u : Uart), s.uart? j = some u →
    (∃ t, exec (.bool j) s = .next t ∧ AnsweredWith s t j u ⟨0, 1⟩) ∧
    (∃ t, exec (.attach j) s = .next t ∧
      AnsweredWith s t j { u with ctl := { u.ctl with cbAttached := true } } ⟨0, 0⟩) ∧
    (∃ t, exec (.detach j) s = .next t ∧
      AnsweredWith s t j { u with ctl := { u.ctl with cbAttached := false } } ⟨0, 0⟩)

/-- R144: what an operation does to an instance's lifecycle state. -/
def Obligations.LifecycleTable : Prop :=
  ∀ (i : Instr) (s t : State) (j : Inst) (u u' : Uart), exec i s = .next t →
    s.uart? j = some u → t.uart? j = some u' →
    (∀ m baud, i = .beginUart j m baud →
      u'.ctl.life = if modeOk m = true ∧ baud ≠ 0 then .active else u.ctl.life) ∧
    (i = .endUart j → u'.ctl.life = .idle) ∧
    ((∀ m baud, i ≠ .beginUart j m baud) → i ≠ .endUart j → u'.ctl.life = u.ctl.life)

/-! ### Buffer operations (40_buffer.md) -/

/-- R112: a store with room appends at the write index and is accepted, and no other byte changes; a
store into a full buffer is dropped and changes nothing. -/
def Obligations.BufStoreAppendsOrDrops : Prop :=
  ∀ (s : State) (id : BufId) (u : Uart) (v : Byte), s.uart? id.inst = some u →
    (((u.buf id.side).w + 1) % slots s.params ≠ (u.buf id.side).r →
      ∃ t mem, exec (.bufStore id v) s = .next t ∧
        BenchedWith s t id u
          { mem := mem, w := ((u.buf id.side).w + 1) % slots s.params, r := (u.buf id.side).r } 1 ∧
        t.byteAt? id (u.buf id.side).w = some v ∧
        ∀ id' k, (id', k) ≠ (id, (u.buf id.side).w) → t.byteAt? id' k = s.byteAt? id' k) ∧
    (((u.buf id.side).w + 1) % slots s.params = (u.buf id.side).r →
      ∃ t, exec (.bufStore id v) s = .next t ∧ BenchedWith s t id u (u.buf id.side) 0)

/-- R113: the oldest byte and its valid bit, and the read index advances; or 0 for an empty buffer. -/
def Obligations.BufReadRemovesOldest : Prop :=
  ∀ (s : State) (id : BufId) (u : Uart), s.uart? id.inst = some u →
    ((u.buf id.side).w = (u.buf id.side).r →
      ∃ t, exec (.bufRead id) s = .next t ∧ BenchedWith s t id u (u.buf id.side) 0) ∧
    ((u.buf id.side).w ≠ (u.buf id.side).r →
      ∃ t, exec (.bufRead id) s = .next t ∧
        BenchedWith s t id u
          { u.buf id.side with r := ((u.buf id.side).r + 1) % slots s.params }
          (0#23 ++ 1#1 ++ slotByte id (u.buf id.side).mem (u.buf id.side).r))

/-- R114: the oldest byte and its valid bit, or 0 for an empty buffer; nothing changes. -/
def Obligations.BufPeekAnswersOldest : Prop :=
  ∀ (s : State) (id : BufId) (u : Uart), s.uart? id.inst = some u →
    ((u.buf id.side).w = (u.buf id.side).r →
      ∃ t, exec (.bufPeek id) s = .next t ∧ BenchedWith s t id u (u.buf id.side) 0) ∧
    ((u.buf id.side).w ≠ (u.buf id.side).r →
      ∃ t, exec (.bufPeek id) s = .next t ∧
        BenchedWith s t id u (u.buf id.side)
          (0#23 ++ 1#1 ++ slotByte id (u.buf id.side).mem (u.buf id.side).r))

/-- R115, R116: the count `w -N r` and the full flag; nothing changes. -/
def Obligations.BufAvailAndIsfullReport : Prop :=
  ∀ (s : State) (id : BufId) (u : Uart), s.wf → s.uart? id.inst = some u →
    (∃ t c, exec (.bufAvail id) s = .next t ∧ BenchedWith s t id u (u.buf id.side) c ∧
      c.toNat = (if (u.buf id.side).r ≤ (u.buf id.side).w
        then (u.buf id.side).w - (u.buf id.side).r
        else (u.buf id.side).w + slots s.params - (u.buf id.side).r)) ∧
    (∃ t, exec (.bufIsfull id) s = .next t ∧
      BenchedWith s t id u (u.buf id.side)
        (if ((u.buf id.side).w + 1) % slots s.params = (u.buf id.side).r then 1 else 0))

/-- R117: both indices 0; the storage stays. -/
def Obligations.BufClearResetsIndices : Prop :=
  ∀ (s : State) (id : BufId) (u : Uart), s.uart? id.inst = some u →
    ∃ t, exec (.bufClear id) s = .next t ∧
      BenchedWith s t id u { u.buf id.side with w := 0, r := 0 } 0

/-- R118: on indices, `a +N 1` and `a -N b` are the masked sum and difference, the difference computed
without a bound, in any width of at least `IW + 1` bits, or in `IW`-bit two's complement. -/
def Obligations.IndexArithmeticIsMasking : Prop :=
  ∀ (iw a b : Nat), 1 ≤ iw → a < 2 ^ iw → b < 2 ^ iw →
    addN (2 ^ iw) a 1 = (a + 1) &&& (2 ^ iw - 1) ∧
    subN (2 ^ iw) a b = (a + 2 ^ iw - b) &&& (2 ^ iw - 1) ∧
    (∀ width, iw + 1 ≤ width →
      subN (2 ^ iw) a b =
        (BitVec.ofNat width a - BitVec.ofNat width b).toNat &&& (2 ^ iw - 1)) ∧
    subN (2 ^ iw) a b = (BitVec.ofNat iw a - BitVec.ofNat iw b).toNat

/-- R111: no sequence of operations makes a buffer of `N` slots hold more than `N - 1` bytes; `N - 1`
stores fill an empty one, wherever its indices stand, and the next store is dropped. -/
def Obligations.BufferHoldsAtMostNMinusOne : Prop :=
  ∀ (id : BufId) (n : Nat) (b : Buf), 2 ≤ n → bufWf n b →
    (∀ ops : List BufOp, count n (runBuf id n b ops).buf ≤ n - 1) ∧
    (isEmpty b = true → ∀ (vs : List Byte) (v : Byte), vs.length = n - 1 →
      (runBuf id n b (vs.map .store)).accepted = vs ∧
      isFull n (runBuf id n b (vs.map .store)).buf = true ∧
      runBuf id n b (vs.map .store ++ [.store v]) = runBuf id n b (vs.map .store))

/-- R119, counted since the last `CLEAR` (log 12): the bytes read are the first of the bytes accepted, in order,
and the rest of those are still queued. Of a run without `CLEAR` it is R119's own claim. -/
def Obligations.BufferIsFirstInFirstOut : Prop :=
  ∀ (id : BufId) (n : Nat) (b : Buf) (ops : List BufOp),
    2 ≤ n → bufWf n b → isEmpty b = true →
    (runBuf id n b ops).returned <+: (runBuf id n b ops).accepted ∧
    (runBuf id n b ops).accepted =
      (runBuf id n b ops).returned ++ contents id n (runBuf id n b ops).buf

/-- R61 and 20_memory.md R60: a bench operation on a buffer that does not exist faults. The fault is the
model's choice (log 9). -/
def Obligations.AbsentBufferFaults : Prop :=
  ∀ (i : Instr) (s : State) (j : Inst), i.port = .buffer → i.inst? = some j →
    s.numUart ≤ j.toNat → ∃ b : BufId, b.inst = j ∧ exec i s = .fault (.noSuchBuffer b)

/-! ### Dispatch (42_dispatch.md) -/

/-- R172, R174: a `DISPATCH` with a pending receive event, whether a transmit event is pending or not.
The register is read and its flag cleared; the byte goes to the callback, or to `RXB`, or is dropped
if `RXB` is full. -/
def Obligations.DispatchReceives : Prop :=
  ∀ (s : State) (j : Inst) (u : Uart), s.uart? j = some u → u.per.clkEn = true →
    u.per.rxReady = true → u.per.rxIrqEn = true →
    ∃ t u', exec (.dispatch j) s = .next t ∧ t.uart? j = some u' ∧
      u'.per.rxReady = false ∧ u'.per.rxIrqEn = true ∧
      (u.ctl.cbAttached = true →
        t.cblog = s.cblog ++ [(j.toNat, u.per.rxData)] ∧ u'.rxb = u.rxb) ∧
      (u.ctl.cbAttached = false → t.cblog = s.cblog ∧
        ((u.rxb.w + 1) % slots s.params = u.rxb.r → u'.rxb = u.rxb) ∧
        ((u.rxb.w + 1) % slots s.params ≠ u.rxb.r →
          u'.rxb.w = (u.rxb.w + 1) % slots s.params ∧ u'.rxb.r = u.rxb.r ∧
          t.byteAt? ⟨j, .rx⟩ u.rxb.w = some u.per.rxData ∧
          ∀ id k, (id, k) ≠ (⟨j, .rx⟩, u.rxb.w) → t.byteAt? id k = s.byteAt? id k))

/-- R173, R174: a `DISPATCH` with a pending transmit event, whether a receive event is pending or not.
The oldest queued byte moves to the transmit register; the line is disabled once `TXB` is empty. -/
def Obligations.DispatchTransmits : Prop :=
  ∀ (s : State) (j : Inst) (u : Uart), s.uart? j = some u → u.per.clkEn = true →
    u.per.txEmpty = true → u.per.txIrqEn = true →
    ∃ t u', exec (.dispatch j) s = .next t ∧ t.uart? j = some u' ∧
      (u.txb.w ≠ u.txb.r →
        u'.per.txData = slotByte ⟨j, .tx⟩ u.txb.mem u.txb.r ∧ u'.per.txEmpty = false ∧
        u'.per.txComplete = false ∧
        u'.txb = { u.txb with r := (u.txb.r + 1) % slots s.params } ∧
        (u'.per.txIrqEn = true ↔ u.txb.w ≠ (u.txb.r + 1) % slots s.params)) ∧
      (u.txb.w = u.txb.r →
        u'.txb = u.txb ∧
        u'.per = { u.per with txIrqEn := false, rxReady := u'.per.rxReady })

/-- R172 to R174, the frame: an enabled `DISPATCH` writes `rx_ready`, `RXB`, `TXB.r`, `tx_data`,
`tx_empty`, `tx_complete`, `tx_irq_en` and `CBLOG` only, each part only where its event is pending. Of
`RXB` it writes `w` and the slot at the old write index, and nothing in callback mode (R26). -/
def Obligations.DispatchFrame : Prop :=
  ∀ (s : State) (j : Inst) (u : Uart), s.uart? j = some u → irq u = true →
    ∃ t u' delivered, exec (.dispatch j) s = .next t ∧ TakenWith s t j u' delivered ∧
      u' = { u with
        rxb := { u'.rxb with r := u.rxb.r }
        txb := { u.txb with r := u'.txb.r }
        per := { u.per with
          rxReady := u'.per.rxReady, txData := u'.per.txData, txEmpty := u'.per.txEmpty
          txComplete := u'.per.txComplete, txIrqEn := u'.per.txIrqEn } } ∧
      (∀ id k, storeAddress (.dispatch j) s ≠ some (id, k) → t.byteAt? id k = s.byteAt? id k) ∧
      (u.ctl.cbAttached = true →
        u'.rxb = u.rxb ∧ ∀ id k, t.byteAt? id k = s.byteAt? id k) ∧
      (rxEv u = false →
        delivered = [] ∧ u'.rxb = u.rxb ∧ u'.per.rxReady = u.per.rxReady) ∧
      (txEv u = false →
        u'.txb = u.txb ∧ u'.per = { u.per with rxReady := u'.per.rxReady })

/-- R174, R219: after an enabled `DISPATCH` neither event is pending, so the request is gone. -/
def Obligations.DispatchLeavesNoRequest : Prop :=
  ∀ (s : State) (j : Inst) (u : Uart), s.uart? j = some u → irq u = true →
    ∃ t u', exec (.dispatch j) s = .next t ∧ t.uart? j = some u' ∧
      rxEv u' = false ∧ txEv u' = false ∧ irq u' = false

/-! ### Environment events and the boot-guard timer (43_environment_timer.md) -/

/-- R191: an arriving byte sets the flag; on an overrun `keep` says which byte survives. -/
def Obligations.RxArriveFillsRegister : Prop :=
  ∀ (s : State) (j : Inst) (u : Uart) (v : Byte) (keep : Bool), s.uart? j = some u →
    u.per.clkEn = true →
    ∃ t, exec (.rxArrive j v keep) s = .next t ∧
      TakenWith s t j
        { u with per := { u.per with
          rxData := if u.per.rxReady = true ∧ keep = true then u.per.rxData else v
          rxReady := true } } []

/-- R192: the shift register takes the waiting byte. -/
def Obligations.TxLoadMovesByteToShiftRegister : Prop :=
  ∀ (s : State) (j : Inst) (u : Uart), s.uart? j = some u →
    u.per.clkEn = true → u.per.txEmpty = false → u.per.shBusy = false →
    ∃ t, exec (.txLoad j) s = .next t ∧
      TakenWith s t j
        { u with per := { u.per with shData := u.per.txData, shBusy := true, txEmpty := true } } []

/-- R193: the byte is on the line; transmission is complete if none waits. -/
def Obligations.TxShiftDonePutsByteOnWire : Prop :=
  ∀ (s : State) (j : Inst) (u : Uart), s.uart? j = some u →
    u.per.clkEn = true → u.per.shBusy = true →
    ∃ t, exec (.txShiftDone j) s = .next t ∧
      TakenWith s t j
        { u with
          wire := u.wire ++ [u.per.shData]
          per := { u.per with
            shBusy := false
            txComplete := if u.per.txEmpty = true then true else u.per.txComplete } } []

/-- R194: every boot-guard counter advances by one, saturating at `GUARD_TICKS`; nothing else changes. -/
def Obligations.TickAdvancesGuardCounters : Prop :=
  ∀ (s : State), ∃ t, exec .tick s = .next t ∧ t.numUart = s.numUart ∧
    (∀ (k : Nat) (u : Uart), s.uarts[k]? = some u →
      t.uarts[k]? = some { u with
        grdCnt := if u.desc.bootGuardEn = true ∧ u.grdCnt < s.params.guardTicks
          then u.grdCnt + 1 else u.grdCnt }) ∧
    t.params = s.params ∧ t.cblog = s.cblog ∧ t.resps = s.resps ∧ t.bufResps = s.bufResps ∧
    t.hostCmds = s.hostCmds ∧ t.turns = s.turns ∧ t.last = .taken

/-- R171, R190, R192, R193: an event that is not enabled has no step: nothing of the core changes (that
the turn passes is the model's choice, log 6). -/
def Obligations.DisabledEventChangesNothing : Prop :=
  ∀ (s : State) (j : Inst) (u : Uart), s.uart? j = some u →
    (∀ i, (i = .dispatch j ∧ (u.per.clkEn = false ∨
          (u.per.rxReady = false ∨ u.per.rxIrqEn = false) ∧
          (u.per.txEmpty = false ∨ u.per.txIrqEn = false))) ∨
        ((∃ v k, i = .rxArrive j v k) ∧ u.per.clkEn = false) ∨
        (i = .txLoad j ∧
          (u.per.clkEn = false ∨ u.per.txEmpty = true ∨ u.per.shBusy = true)) ∨
        (i = .txShiftDone j ∧ (u.per.clkEn = false ∨ u.per.shBusy = false)) →
      ∃ t, exec i s = .next t ∧ SameCore s t ∧ t.hostCmds = s.hostCmds ∧ t.turns = s.turns ∧
        t.last = .notEnabled)

/-- R195: after an accepted `BEGIN` of a guarded instance and `k` ticks, a `WRITE` is discarded exactly
while `k < GUARD_TICKS`; from then on it is queued. -/
def Obligations.GuardWindowLastsGuardTicks : Prop :=
  ∀ (s t t' : State) (j : Inst) (u : Uart) (m v : Byte) (f : Frame) (baud : BitVec 32) (k : Nat),
    s.wf → s.uart? j = some u → u.desc.bootGuardEn = true → decodeMode m = some f → baud ≠ 0 →
    exec (.beginUart j m baud) s = .next t → repeatExec .tick k t = .next t' →
    ∃ x, exec (.write j v) t' = .next x ∧
      x.resps = t'.resps ++ [⟨0, if k < s.params.guardTicks then 0 else 1⟩]

/-! ### Frames, ownership and independence -/

/-- R23, 20_memory.md R61: only a `STORE` writes storage, and only at the address it stores to; every
other operation, and every address outside, keeps every byte. -/
def Obligations.OnlyStoresWriteStorage : Prop :=
  ∀ (i : Instr) (s t : State), exec i s = .next t →
    ∀ (id : BufId) (k : Nat), storeAddress i s ≠ some (id, k) → t.byteAt? id k = s.byteAt? id k

/-- R26, R69: no host command but `BEGIN` and `END` moves an index the dispatcher owns, no `DISPATCH`
moves an index the host owns, and no environment event moves any. -/
def Obligations.IndicesHaveOneOwner : Prop :=
  ∀ (i : Instr) (s t : State) (j : Inst) (u u' : Uart), exec i s = .next t →
    s.uart? j = some u → t.uart? j = some u' →
    (i.port = .host → (∀ m baud, i ≠ .beginUart j m baud) → i ≠ .endUart j →
      u'.rxb.w = u.rxb.w ∧ u'.txb.r = u.txb.r) ∧
    (i = .dispatch j → u'.rxb.r = u.rxb.r ∧ u'.txb.w = u.txb.w) ∧
    (i.port = .event → i ≠ .dispatch j → u'.rxb = u.rxb ∧ u'.txb = u.txb)

/-- R223, R130: an operation of one instance changes no other instance, and its entries in `CBLOG` are
its own. -/
def Obligations.OperationsStayOnTheirInstance : Prop :=
  ∀ (i : Instr) (s t : State) (j : Inst), exec i s = .next t → i.inst? = some j →
    (∀ k : Nat, k ≠ j.toNat → t.uarts[k]? = s.uarts[k]?) ∧
    ∃ vs : List Byte, t.cblog = s.cblog ++ vs.map fun v => (j.toNat, v)

/-- R223, R22: what an operation does to its instance, answers and appends to `CBLOG` depends on the
parameters and on that instance alone. -/
def Obligations.OtherInstancesAreInvisible : Prop :=
  ∀ (i : Instr) (s₁ s₂ t₁ : State) (j : Inst), i.inst? = some j → s₁.params = s₂.params →
    s₁.uart? j = s₂.uart? j → exec i s₁ = .next t₁ →
    ∃ t₂ rs bs ds, exec i s₂ = .next t₂ ∧ t₁.uart? j = t₂.uart? j ∧
      t₁.resps = s₁.resps ++ rs ∧ t₂.resps = s₂.resps ++ rs ∧
      t₁.bufResps = s₁.bufResps ++ bs ∧ t₂.bufResps = s₂.bufResps ++ bs ∧
      t₁.cblog = s₁.cblog ++ ds ∧ t₂.cblog = s₂.cblog ++ ds ∧ t₁.last = t₂.last

/-- R242: no step changes a parameter: the core's, the number of instances, or a descriptor. -/
def Obligations.NoStepChangesParameter : Prop :=
  ∀ (s t : State), step s = .next t →
    t.params = s.params ∧ t.uarts.map (fun u => u.desc) = s.uarts.map (fun u => u.desc)

/-- R45: `WIRE` is extended by `TX_SHIFT_DONE` alone and `CBLOG` by `DISPATCH` in callback mode alone. -/
def Obligations.LogsHaveOneWriter : Prop :=
  ∀ (i : Instr) (s t : State) (j : Inst) (u u' : Uart), exec i s = .next t →
    s.uart? j = some u → t.uart? j = some u' →
    (i ≠ .txShiftDone j → u'.wire = u.wire) ∧
    ((∀ k, i ≠ .dispatch k) → t.cblog = s.cblog) ∧
    (i = .dispatch j → u.ctl.cbAttached = false → t.cblog = s.cblog)

/-! ### Invariants -/

/-- Derived from R4 to R6, R10, R11, R23 to R25, R27(g), R43: every step, the test bench's too, keeps a
state well formed. -/
def Obligations.StepKeepsStateWellFormed : Prop :=
  ∀ (s t : State), s.wf → step s = .next t → t.wf

/-- Derived from R46: every step of an agent of R12 keeps the invariants (I1) to (I6). The test bench is
no agent: it can fill a buffer of an idle instance. -/
def Obligations.AgentStepsKeepInvariants : Prop :=
  ∀ (s t : State) (turn : Turn) (rest : List Turn), s.inv → s.turns = turn :: rest →
    turn.ofAgent = true → step s = .next t → t.inv

/-- Derived from R192, R193, R195: every agent's step also keeps the two transmit facts: an empty
register with an idle shift register means complete, and a guarded transmitter has nothing to do. -/
def Obligations.AgentStepsKeepTransmitInvariants : Prop :=
  ∀ (s t : State) (turn : Turn) (rest : List Turn), s.txInv → s.turns = turn :: rest →
    turn.ofAgent = true → step s = .next t → t.txInv

/-- R240, R241, 10_state.md section 9: the reset value of every field of instance `k` that the spec
gives one, for all parameters. (The four unspecified ones are free values, log 4.) -/
def Obligations.ResetValues : Prop :=
  ∀ (p : Params) (ds : List Descriptor) (k : Nat) (d : Descriptor), ds[k]? = some d →
    (State.resetWith p ds).params = p ∧ (State.resetWith p ds).numUart = ds.length ∧
    (State.resetWith p ds).cblog = [] ∧ (State.resetWith p ds).resps = [] ∧
    ∃ u, (State.resetWith p ds).uarts[k]? = some u ∧ u.desc = d ∧
      u.ctl = { life := .idle, txPin := d.defaultTxPin, rxPin := d.defaultRxPin, baud := 0
                mode := 0x06, cbAttached := false } ∧
      u.per = { clkEn := false, rxIrqEn := false, txIrqEn := false, rxReady := false
                rxData := u.per.rxData, txEmpty := true, txData := u.per.txData
                txComplete := true, shBusy := false, shData := u.per.shData, brr := 0
                wl := .eight, par := .none, stop := .one
                txPinApplied := d.defaultTxPin, rxPinApplied := d.defaultRxPin } ∧
      u.rxb.w = 0 ∧ u.rxb.r = 0 ∧ u.txb.w = 0 ∧ u.txb.r = 0 ∧ u.grdCnt = 0 ∧ u.wire = []

/-- Derived from R46, R240: the reset state of every core whose parameters keep the bounds of R4, R6,
R8, R10 and R11 meets all the invariants, and so does `State.reset` (its parameters are log 2's and
log 3's choice). -/
def Obligations.ResetMeetsInvariants : Prop :=
  (∀ (p : Params) (ds : List Descriptor), p.wf → 1 ≤ ds.length → ds.length ≤ 16 →
    (∀ d ∈ ds, d.defaultTxPin ≠ d.defaultRxPin) → (ds.map fun d => d.vecId).Nodup →
    (State.resetWith p ds).txInv) ∧
  State.reset.txInv

/-! ### Byte streams and progress -/

/-- R71(b): the bytes on the line and on their way there, in order. An operation that is no bench's
keeps them, an accepted `WRITE` appends its byte, and `BEGIN` or `END` discards those not yet on the
line. -/
def Obligations.TransmitOrderIsWriteOrder : Prop :=
  ∀ (i : Instr) (s t : State) (j : Inst) (u u' : Uart), s.wf → i.port ≠ .buffer →
    exec i s = .next t → s.uart? j = some u → t.uart? j = some u' →
    txStream s.params j u' = txStream s.params j u ∨
    (∃ v, i = .write j v ∧ t.resps = s.resps ++ [⟨0, 1⟩] ∧
      txStream s.params j u' = txStream s.params j u ++ [v]) ∨
    (((∃ m baud, i = .beginUart j m baud) ∨ i = .endUart j) ∧
      txStream s.params j u' = u.wire ∧ u'.wire = u.wire)

/-- R71(a): the received bytes waiting, in order. `READ` takes the first and answers it; `DISPATCH`
appends the byte it received in buffered mode, where there is room; `BEGIN` and `END` discard; nothing
else, but the bench, changes them. -/
def Obligations.ReceiveOrderIsArrivalOrder : Prop :=
  ∀ (i : Instr) (s t : State) (j : Inst) (u u' : Uart), s.wf → i.port ≠ .buffer →
    exec i s = .next t → s.uart? j = some u → t.uart? j = some u' →
    contents ⟨j, .rx⟩ (slots s.params) u'.rxb = contents ⟨j, .rx⟩ (slots s.params) u.rxb ∨
    (∃ v, i = .read j ∧ t.resps = s.resps ++ [⟨0, v.zeroExtend 32⟩] ∧
      contents ⟨j, .rx⟩ (slots s.params) u.rxb =
        v :: contents ⟨j, .rx⟩ (slots s.params) u'.rxb) ∨
    (i = .dispatch j ∧ rxEv u = true ∧ u.ctl.cbAttached = false ∧
      count (slots s.params) u.rxb < slots s.params - 1 ∧
      contents ⟨j, .rx⟩ (slots s.params) u'.rxb =
        contents ⟨j, .rx⟩ (slots s.params) u.rxb ++ [u.per.rxData]) ∨
    (((∃ m baud, i = .beginUart j m baud) ∨ i = .endUart j) ∧
      contents ⟨j, .rx⟩ (slots s.params) u'.rxb = [])

/-- Derived from R140, R173, R192, R193, R259: nothing but a `WRITE` to an instance adds to the work its
transmitter still has, and each step that moves a byte along takes one from it. -/
def Obligations.TransmitWorkOnlyFalls : Prop :=
  ∀ (i : Instr) (s t : State) (j : Inst) (u u' : Uart), s.wf → i.port ≠ .buffer →
    (∀ v, i ≠ .write j v) → exec i s = .next t → s.uart? j = some u → t.uart? j = some u' →
    txWork s.params u' ≤ txWork s.params u ∧
    (t.last = .taken →
      i = .txLoad j ∨ i = .txShiftDone j ∨
        (i = .dispatch j ∧ txEv u = true ∧ isEmpty u.txb = false) →
      txWork s.params u' + 1 = txWork s.params u)

/-- Derived from R138, R46 (I4), R259: from every state that meets the invariants, some sequence of at
most `txWork` steps of the dispatcher, `TX_LOAD` and `TX_SHIFT_DONE` of an instance puts every byte it
holds on the line in order, and then a `FLUSH` is answered. That the fairness of R196, which makes such
steps happen, is stated only as this possibility is the model's choice (log 11). -/
def Obligations.TransmitterCanBeEmptied : Prop :=
  ∀ (s : State) (j : Inst) (u : Uart), s.txInv → s.uart? j = some u →
    ∃ (steps : List Instr) (t x : State) (u' : Uart),
      steps.length ≤ txWork s.params u ∧
      (∀ i ∈ steps, i = .dispatch j ∨ i = .txLoad j ∨ i = .txShiftDone j) ∧
      execAll steps s = .next t ∧ t.uart? j = some u' ∧
      u'.wire = txStream s.params j u ∧
      exec (.flush j) t = .next x ∧ AnsweredWith t x j u' ⟨0, 0⟩
end

