-- ==== Sys2Proof/Laws/Index.lean ====
section
/-! SUPPORT. Index arithmetic modulo `N` (40_buffer.md R118, 10_state.md R27). -/

namespace Sys2Proof.Machine

theorem slots_pos (p : Params) : 0 < slots p := Nat.two_pow_pos p.iw

theorem two_le_slots {p : Params} (h : p.wf) : 2 ≤ slots p := by
  have := Nat.pow_le_pow_right (n := 2) (by omega) h.1
  simpa [slots] using this

theorem slots_le {p : Params} (h : p.wf) : slots p ≤ 65536 := by
  have := Nat.pow_le_pow_right (n := 2) (by omega) h.2.1
  simpa [slots] using this

theorem addN_lt {n : Nat} (hn : 0 < n) (a b : Nat) : addN n a b < n := Nat.mod_lt _ hn

/-- `a +N b` for an index and a displacement below `N`. -/
theorem addN_eq {n a b : Nat} (ha : a < n) (hb : b < n) :
    addN n a b = if a + b < n then a + b else a + b - n := by
  unfold addN
  split
  · exact Nat.mod_eq_of_lt ‹_›
  · rw [Nat.mod_eq_sub_mod (by omega), Nat.mod_eq_of_lt (by omega)]

/-- The next slot. -/
theorem addN_one {n a : Nat} (hn : 2 ≤ n) (ha : a < n) :
    addN n a 1 = if a + 1 < n then a + 1 else 0 := by
  rw [addN_eq ha (by omega)]
  split <;> omega

theorem addN_zero {n a : Nat} (ha : a < n) : addN n a 0 = a := by
  rw [addN_eq ha (by omega)]
  split <;> omega

/-- `a -N b` for two indices: the wrap is taken where `b` is ahead. -/
theorem subN_eq {n a b : Nat} (ha : a < n) (hb : b < n) :
    subN n a b = if b ≤ a then a - b else a + n - b := by
  unfold subN
  rw [Nat.mod_eq_of_lt hb]
  split
  · rw [Nat.mod_eq_sub_mod (by omega), Nat.mod_eq_of_lt (by omega)]
    omega
  · rw [Nat.mod_eq_of_lt (by omega)]
    omega

section Indices
variable {n : Nat} {b : Buf} (hw : b.w < n) (hr : b.r < n)
include hw hr

theorem count_eq : count n b = if b.r ≤ b.w then b.w - b.r else b.w + n - b.r := subN_eq hw hr

/-- R27(a). -/
theorem count_lt : count n b < n := by
  rw [count_eq hw hr]
  split <;> omega

/-- R27(c). -/
theorem isEmpty_iff_count : isEmpty b = true ↔ count n b = 0 := by
  rw [count_eq hw hr]
  simp only [isEmpty, beq_iff_eq]
  split <;> omega

theorem not_isEmpty_iff_count : isEmpty b = false ↔ 0 < count n b := by
  rw [← Bool.not_eq_true, isEmpty_iff_count hw hr]
  omega

/-- R27(b). -/
theorem isFull_iff_count (hn : 2 ≤ n) : isFull n b = true ↔ count n b = n - 1 := by
  rw [count_eq hw hr]
  simp only [isFull, beq_iff_eq, addN_one hn hw]
  split <;> split <;> omega

theorem not_isFull_iff_count (hn : 2 ≤ n) : isFull n b = false ↔ count n b < n - 1 := by
  have := count_lt hw hr
  rw [← Bool.not_eq_true, isFull_iff_count hw hr hn]
  omega

/-- The slot after the queued ones is the write index. -/
theorem addN_r_count : addN n b.r (count n b) = b.w := by
  rw [addN_eq hr (count_lt hw hr), count_eq hw hr]
  split <;> split <;> omega

/-- The queued slots are distinct from the write slot. -/
theorem addN_r_ne_w {k : Nat} (hk : k < count n b) : addN n b.r k ≠ b.w := by
  have hc := count_lt hw hr
  rw [addN_eq hr (by omega)]
  rw [count_eq hw hr] at hk hc
  split at hk <;> split <;> omega

end Indices

/-- Reading shifts the queued slots by one. -/
theorem addN_addN_one {n r k : Nat} (hn : 2 ≤ n) (hr : r < n) (hk : k + 1 < n) :
    addN n (addN n r 1) k = addN n r (k + 1) := by
  have h1 := addN_lt (by omega : 0 < n) r 1
  rw [addN_eq h1 (by omega), addN_eq hr hk, addN_one hn hr]
  split <;> split <;> (try split) <;> omega

end Sys2Proof.Machine
end

