-- ==== Sys2Proof/Laws/Memory.lean ====
section
/-! SUPPORT. Buffer storage: a read after a write, and the canonical form. -/

namespace Sys2Proof.Machine

/-- The slot written reads as the byte written; every other slot reads as before. -/
theorem put_byteAt? (m : Memory) (k : Nat) (v : Byte) (j : Nat) :
    (m.put k v).byteAt? j = if j = k then some v else m.byteAt? j := by
  induction m with
  | nil => simp [Memory.put, Memory.byteAt?]
  | cons c rest ih =>
    obtain ⟨k', v'⟩ := c
    unfold Memory.put
    split
    · simp [Memory.byteAt?]
    · split
      · subst k'
        by_cases hj : j = k <;> simp [Memory.byteAt?, hj]
      · by_cases hj : j = k' <;> by_cases hk : j = k <;> simp_all [Memory.byteAt?]

@[simp] theorem put_byteAt?_self (m : Memory) (k : Nat) (v : Byte) :
    (m.put k v).byteAt? k = some v := by
  simp [put_byteAt?]

theorem put_byteAt?_ne (m : Memory) {k j : Nat} (v : Byte) (h : j ≠ k) :
    (m.put k v).byteAt? j = m.byteAt? j := by
  simp [put_byteAt?, h]

/-- The cells after a write are old cells or the cell written. -/
theorem mem_put {m : Memory} {k : Nat} {v : Byte} {c : Host.Cell} (h : c ∈ m.put k v) :
    c = (k, v) ∨ c ∈ m := by
  induction m with
  | nil => simpa [Memory.put] using h
  | cons d rest ih =>
    obtain ⟨k', v'⟩ := d
    unfold Memory.put at h
    split at h
    · simpa using h
    · split at h
      · rcases List.mem_cons.1 h with h | h
        · exact .inl h
        · exact .inr (List.mem_cons_of_mem _ h)
      · rcases List.mem_cons.1 h with h | h
        · exact .inr (h ▸ List.mem_cons_self)
        · exact (ih h).imp id (List.mem_cons_of_mem _)

/-- A write keeps the canonical form. -/
theorem put_wf {m : Memory} (h : m.wf) (k : Nat) (v : Byte) : (m.put k v).wf := by
  induction m with
  | nil => simp [Memory.put, Memory.wf]
  | cons c rest ih =>
    obtain ⟨k', v'⟩ := c
    have hc := List.pairwise_cons.1 h
    unfold Memory.put
    split
    next hlt =>
      refine List.pairwise_cons.2 ⟨?_, h⟩
      intro d hd
      rcases List.mem_cons.1 hd with rfl | hd
      · exact hlt
      · exact Nat.lt_trans hlt (hc.1 d hd)
    next hge =>
      split
      next heq =>
        subst k'
        exact List.pairwise_cons.2 ⟨hc.1, hc.2⟩
      next hne =>
        refine List.pairwise_cons.2 ⟨?_, ih hc.2⟩
        intro d hd
        rcases mem_put hd with rfl | hd
        · show k' < k
          omega
        · exact hc.1 d hd

/-- A write keeps every slot below `n`. -/
theorem put_bound {m : Memory} {n k : Nat} (h : ∀ c ∈ m, c.1 < n) (hk : k < n) (v : Byte) :
    ∀ c ∈ m.put k v, c.1 < n := by
  intro c hc
  rcases mem_put hc with rfl | hc
  · exact hk
  · exact h c hc

/-- Two storages in canonical form that read the same are the same list: equal storages are equal
data. -/
theorem wf_ext {m m' : Memory} (h : m.wf) (h' : m'.wf)
    (he : ∀ k, m.byteAt? k = m'.byteAt? k) : m = m' := by
  have absent : ∀ {m : Memory} {k : Nat}, (∀ c ∈ m, k < c.1) → m.byteAt? k = none := by
    intro m
    induction m with
    | nil => intros; rfl
    | cons c rest ih =>
      intro k hk
      have h1 := hk c List.mem_cons_self
      have h2 : k ≠ c.1 := Nat.ne_of_lt h1
      simp only [Memory.byteAt?, if_neg h2]
      exact ih fun d hd => hk d (List.mem_cons_of_mem _ hd)
  induction m generalizing m' with
  | nil =>
    cases m' with
    | nil => rfl
    | cons c rest =>
      have := he c.1
      simp [Memory.byteAt?] at this
  | cons c rest ih =>
    obtain ⟨k, v⟩ := c
    cases m' with
    | nil =>
      have := he k
      simp [Memory.byteAt?] at this
    | cons c' rest' =>
      obtain ⟨k', v'⟩ := c'
      have hc := List.pairwise_cons.1 h
      have hc' := List.pairwise_cons.1 h'
      have hk : k = k' := by
        rcases Nat.lt_trichotomy k k' with hlt | heq | hgt
        · have h1 := he k
          have h2 := absent (m := (k', v') :: rest') (k := k) (by
            intro d hd
            rcases List.mem_cons.1 hd with rfl | hd
            · exact hlt
            · exact Nat.lt_trans hlt (hc'.1 d hd))
          rw [h2] at h1
          simp [Memory.byteAt?] at h1
        · exact heq
        · have h1 := he k'
          have h2 := absent (m := (k, v) :: rest) (k := k') (by
            intro d hd
            rcases List.mem_cons.1 hd with rfl | hd
            · exact hgt
            · exact Nat.lt_trans hgt (hc.1 d hd))
          rw [h2] at h1
          simp [Memory.byteAt?] at h1
      subst hk
      have hv := he k
      simp only [Memory.byteAt?, if_pos, Option.some.injEq] at hv
      subst hv
      congr 1
      refine ih hc.2 hc'.2 fun j => ?_
      by_cases hj : j = k
      · subst hj
        rw [absent hc.1, absent hc'.1]
      · have := he j
        simpa [Memory.byteAt?, hj] using this

end Sys2Proof.Machine
end

