-- ==== Sys2Proof/Laws/Buffer.lean ====
section
/-! SUPPORT. One specification lemma for each buffer operation (40_buffer.md), in terms of the queued
bytes, and that each keeps a buffer well formed. -/

namespace Sys2Proof.Machine

section
variable {n : Nat} {b : Buf}

theorem store_full (h : isFull n b = true) (v : Byte) : store n b v = (b, false) := by
  simp [store, h]

theorem store_room (h : isFull n b = false) (v : Byte) :
    store n b v = ({ mem := b.mem.put b.w v, w := addN n b.w 1, r := b.r }, true) := by
  simp [store, h]

theorem store_accepted (v : Byte) : (store n b v).2 = !isFull n b := by
  cases h : isFull n b with
  | true => rw [store_full h]; rfl
  | false => rw [store_room h]; rfl

theorem readByte_empty (id : BufId) (h : isEmpty b = true) : readByte id n b = (b, none) := by
  simp [readByte, h]

theorem readByte_some (id : BufId) (h : isEmpty b = false) :
    readByte id n b = ({ b with r := addN n b.r 1 }, some (slotByte id b.mem b.r)) := by
  simp [readByte, h]

/-- `BUF_PEEK` and `BUF_READ` return the same byte (R114). -/
theorem readByte_byte (id : BufId) : (readByte id n b).2 = peekByte id b := by
  cases h : isEmpty b <;> simp [readByte, peekByte, h]

theorem clear_isEmpty : isEmpty (clear b) = true := by simp [clear, isEmpty]

theorem clear_count (hn : 0 < n) : count n (clear b) = 0 := by
  simp [clear, count, subN, Nat.mod_eq_of_lt hn]

/-! ### Queued bytes -/

theorem contents_length (id : BufId) : (contents id n b).length = count n b := by
  simp [contents]

theorem contents_getElem? (id : BufId) (k : Nat) :
    (contents id n b)[k]? =
      if k < count n b then some (slotByte id b.mem (addN n b.r k)) else none := by
  unfold contents
  split <;> simp_all

theorem contents_empty (id : BufId) (hw : b.w < n) (hr : b.r < n) (h : isEmpty b = true) :
    contents id n b = [] := by
  rw [← List.length_eq_zero_iff, contents_length]
  exact (isEmpty_iff_count hw hr).1 h

variable (hn : 2 ≤ n)
include hn

/-- One queued byte more after an accepted store. -/
theorem store_count (hw : b.w < n) (hr : b.r < n) (h : isFull n b = false) (v : Byte) :
    count n (store n b v).1 = count n b + 1 := by
  have hc := (not_isFull_iff_count hw hr hn).1 h
  have h1 := addN_lt (by omega : 0 < n) b.w 1
  rw [store_room h]
  show subN n (addN n b.w 1) b.r = subN n b.w b.r + 1
  change subN n b.w b.r < n - 1 at hc
  rw [subN_eq h1 hr, subN_eq hw hr, addN_one hn hw]
  rw [subN_eq hw hr] at hc
  split at hc <;> split <;> split <;> omega

/-- One queued byte fewer after a read. -/
theorem readByte_count (id : BufId) (hw : b.w < n) (hr : b.r < n) (h : isEmpty b = false) :
    count n (readByte id n b).1 + 1 = count n b := by
  have hc := (not_isEmpty_iff_count hw hr).1 h
  have h1 := addN_lt (by omega : 0 < n) b.r 1
  rw [readByte_some id h]
  show subN n b.w (addN n b.r 1) + 1 = subN n b.w b.r
  change 0 < subN n b.w b.r at hc
  rw [subN_eq hw h1, subN_eq hw hr, addN_one hn hr]
  rw [subN_eq hw hr] at hc
  split at hc <;> split <;> split <;> omega

/-- An accepted store appends its byte to the queue (R112). -/
theorem store_contents (id : BufId) (hw : b.w < n) (hr : b.r < n) (h : isFull n b = false)
    (v : Byte) : contents id n (store n b v).1 = contents id n b ++ [v] := by
  have hc := store_count hn hw hr h v
  apply List.ext_getElem?
  intro k
  rw [contents_getElem?, hc, List.getElem?_append, contents_length, contents_getElem?]
  rw [store_room h]
  by_cases hk : k < count n b
  · simp only [hk, if_true, show k < count n b + 1 by omega]
    congr 1
    simp only [slotByte]
    rw [put_byteAt?_ne _ _ (addN_r_ne_w hw hr hk)]
  · by_cases hk' : k = count n b
    · subst hk'
      simp [slotByte, addN_r_count hw hr]
    · simp only [hk, if_false, show ¬ k < count n b + 1 by omega]
      simp only [List.getElem?_eq_none_iff.2, List.length_singleton, show 1 ≤ k - count n b by omega]

/-- A read takes the first byte off the queue (R113). -/
theorem contents_read (id : BufId) (hw : b.w < n) (hr : b.r < n) (h : isEmpty b = false) :
    contents id n b =
      slotByte id b.mem b.r :: contents id n (readByte id n b).1 := by
  have hc := readByte_count hn id hw hr h
  have hlt := count_lt hw hr
  apply List.ext_getElem?
  intro k
  cases k with
  | zero =>
    rw [contents_getElem?, if_pos (by omega), addN_zero hr]
    rfl
  | succ k =>
    rw [contents_getElem?, List.getElem?_cons_succ, contents_getElem?]
    by_cases hk : k + 1 < count n b
    · rw [if_pos hk, if_pos (by omega), readByte_some id h]
      simp only
      rw [addN_addN_one hn hr (by omega)]
    · rw [if_neg hk, if_neg (by omega)]

theorem contents_clear (id : BufId) : contents id n (clear b) = [] := by
  rw [← List.length_eq_zero_iff, contents_length, clear_count (by omega)]

/-! ### Each operation keeps a buffer well formed -/

theorem store_bufWf (h : bufWf n b) (v : Byte) : bufWf n (store n b v).1 := by
  obtain ⟨hm, hb, hw, hr, hq⟩ := h
  cases hf : isFull n b with
  | true =>
    rw [store_full hf]
    exact ⟨hm, hb, hw, hr, hq⟩
  | false =>
    have hc := store_count hn hw hr hf v
    rw [store_room hf] at hc ⊢
    refine ⟨put_wf hm _ _, put_bound hb hw _, addN_lt (by omega) _ _, hr, ?_⟩
    intro k hk
    rw [hc] at hk
    simp only [put_byteAt?]
    split
    · rfl
    · next hne =>
      refine hq k (Nat.lt_of_le_of_ne (by omega) ?_)
      rintro rfl
      exact hne (addN_r_count hw hr)

theorem readByte_bufWf (id : BufId) (h : bufWf n b) : bufWf n (readByte id n b).1 := by
  obtain ⟨hm, hb, hw, hr, hq⟩ := h
  cases he : isEmpty b with
  | true =>
    rw [readByte_empty id he]
    exact ⟨hm, hb, hw, hr, hq⟩
  | false =>
    have hc := readByte_count hn id hw hr he
    have hlt := count_lt hw hr
    rw [readByte_some id he] at hc ⊢
    dsimp only at hc ⊢
    refine ⟨hm, hb, hw, addN_lt (by omega) _ _, ?_⟩
    intro k hk
    dsimp only at hk ⊢
    rw [addN_addN_one hn hr (by omega)]
    exact hq (k + 1) (by omega)

theorem clear_bufWf (h : bufWf n b) : bufWf n (clear b) := by
  obtain ⟨hm, hb, hw, hr, -⟩ := h
  refine ⟨hm, hb, by simp [clear]; omega, by simp [clear]; omega, ?_⟩
  intro k hk
  rw [clear_count (by omega)] at hk
  omega

theorem reset_bufWf : bufWf n Buf.reset := by
  have h0 : count n Buf.reset = 0 := by
    simp [count, subN, Buf.reset, Nat.mod_eq_of_lt (by omega : 0 < n)]
  refine ⟨List.Pairwise.nil, by simp [Buf.reset], by simp [Buf.reset]; omega,
    by simp [Buf.reset]; omega, ?_⟩
  intro k hk
  rw [h0] at hk
  omega

end

end Sys2Proof.Machine
end

