-- ==== Sys2Proof/Laws/Config.lean ====
section
/-! SUPPORT. The OPEN parameters of the reset state keep what 00_scope.md says of them: distinct pins
(R10) and pairwise distinct vectors (R11). -/

namespace Sys2Proof.Config

theorem otherThan_ne (a b : Nat) : otherThan a b ≠ a := by
  unfold otherThan
  split <;> omega

/-- Skipping a larger number keeps away from a smaller one that was already avoided. -/
theorem otherThan_ne_of_lt {a m b : Nat} (h : m < a) (hb : b ≠ m) : otherThan a b ≠ m := by
  unfold otherThan
  split <;> omega

theorem otherThan_surjective (a : Nat) {c : Nat} (h : c ≠ a) : ∃ b, otherThan a b = c := by
  by_cases hc : c < a
  · exact ⟨c, by simp [otherThan, hc]⟩
  · refine ⟨c - 1, ?_⟩
    unfold otherThan
    split <;> omega

theorem vecId_nodup : [vecId 0, vecId 1, vecId 2].Nodup := by
  have h01 := otherThan_ne (vecPart 0) (vecPart 1)
  have hmin := otherThan_ne (min (vecPart 0) (otherThan (vecPart 0) (vecPart 1))) (vecPart 2)
  have hmax := otherThan_ne (max (vecPart 0) (otherThan (vecPart 0) (vecPart 1)))
    (otherThan (min (vecPart 0) (otherThan (vecPart 0) (vecPart 1))) (vecPart 2))
  have hmin' := otherThan_ne_of_lt
    (show min (vecPart 0) (otherThan (vecPart 0) (vecPart 1)) <
      max (vecPart 0) (otherThan (vecPart 0) (vecPart 1)) by omega) hmin
  simp only [vecId, List.nodup_cons, List.mem_cons, List.not_mem_nil, or_false, not_or,
    not_false_eq_true, List.nodup_nil, and_true]
  omega

theorem descriptor_pins_distinct (i : Fin 3) :
    (descriptor i).defaultTxPin ≠ (descriptor i).defaultRxPin := by
  intro h
  have hg := (pinGap i).isLt
  simp only [descriptor] at h
  have := congrArg BitVec.toNat h
  rw [BitVec.toNat_add, BitVec.toNat_ofNat] at this
  have hr := (rxPin i).isLt
  omega

theorem params_wf : params.wf := by decide

end Sys2Proof.Config
end

