-- ==== Sys2Proof/Laws/State.lean ====
section
/-! SUPPORT. What each named update of the state does to each field. -/

namespace Sys2Proof.Machine

section Answer
variable (s : State) (r : Resp)
@[simp] theorem answer_params : (answer s r).params = s.params := rfl
@[simp] theorem answer_uarts : (answer s r).uarts = s.uarts := rfl
@[simp] theorem answer_cblog : (answer s r).cblog = s.cblog := rfl
@[simp] theorem answer_resps : (answer s r).resps = s.resps ++ [r] := rfl
@[simp] theorem answer_bufResps : (answer s r).bufResps = s.bufResps := rfl
@[simp] theorem answer_hostCmds : (answer s r).hostCmds = s.hostCmds.tail := rfl
@[simp] theorem answer_turns : (answer s r).turns = s.turns := rfl
@[simp] theorem answer_last : (answer s r).last = .taken := rfl
@[simp] theorem answer_uart? (i : Inst) : (answer s r).uart? i = s.uart? i := rfl
@[simp] theorem answer_numUart : (answer s r).numUart = s.numUart := rfl
end Answer

section Respond
variable (s : State) (v : BitVec 32)
@[simp] theorem respond_params : (respond s v).params = s.params := rfl
@[simp] theorem respond_uarts : (respond s v).uarts = s.uarts := rfl
@[simp] theorem respond_cblog : (respond s v).cblog = s.cblog := rfl
@[simp] theorem respond_resps : (respond s v).resps = s.resps ++ [⟨0, v⟩] := rfl
@[simp] theorem respond_bufResps : (respond s v).bufResps = s.bufResps := rfl
@[simp] theorem respond_hostCmds : (respond s v).hostCmds = s.hostCmds.tail := rfl
@[simp] theorem respond_turns : (respond s v).turns = s.turns := rfl
@[simp] theorem respond_last : (respond s v).last = .taken := rfl
@[simp] theorem respond_uart? (i : Inst) : (respond s v).uart? i = s.uart? i := rfl
@[simp] theorem respond_numUart : (respond s v).numUart = s.numUart := rfl
end Respond

section RaiseErr
variable (s : State) (c : BitVec 4)
@[simp] theorem raiseErr_params : (raiseErr s c).params = s.params := rfl
@[simp] theorem raiseErr_uarts : (raiseErr s c).uarts = s.uarts := rfl
@[simp] theorem raiseErr_cblog : (raiseErr s c).cblog = s.cblog := rfl
@[simp] theorem raiseErr_resps : (raiseErr s c).resps = s.resps ++ [⟨c, 0⟩] := rfl
@[simp] theorem raiseErr_bufResps : (raiseErr s c).bufResps = s.bufResps := rfl
@[simp] theorem raiseErr_hostCmds : (raiseErr s c).hostCmds = s.hostCmds.tail := rfl
@[simp] theorem raiseErr_turns : (raiseErr s c).turns = s.turns := rfl
@[simp] theorem raiseErr_last : (raiseErr s c).last = .taken := rfl
@[simp] theorem raiseErr_uart? (i : Inst) : (raiseErr s c).uart? i = s.uart? i := rfl
@[simp] theorem raiseErr_numUart : (raiseErr s c).numUart = s.numUart := rfl
end RaiseErr

section BufAnswer
variable (s : State) (w : BitVec 32)
@[simp] theorem bufAnswer_params : (bufAnswer s w).params = s.params := rfl
@[simp] theorem bufAnswer_uarts : (bufAnswer s w).uarts = s.uarts := rfl
@[simp] theorem bufAnswer_cblog : (bufAnswer s w).cblog = s.cblog := rfl
@[simp] theorem bufAnswer_resps : (bufAnswer s w).resps = s.resps := rfl
@[simp] theorem bufAnswer_bufResps : (bufAnswer s w).bufResps = s.bufResps ++ [w] := rfl
@[simp] theorem bufAnswer_hostCmds : (bufAnswer s w).hostCmds = s.hostCmds := rfl
@[simp] theorem bufAnswer_turns : (bufAnswer s w).turns = s.turns := rfl
@[simp] theorem bufAnswer_last : (bufAnswer s w).last = .taken := rfl
@[simp] theorem bufAnswer_uart? (i : Inst) : (bufAnswer s w).uart? i = s.uart? i := rfl
@[simp] theorem bufAnswer_numUart : (bufAnswer s w).numUart = s.numUart := rfl
end BufAnswer

section Reports
variable (s : State)
@[simp] theorem taken_params : (taken s).params = s.params := rfl
@[simp] theorem taken_uarts : (taken s).uarts = s.uarts := rfl
@[simp] theorem taken_cblog : (taken s).cblog = s.cblog := rfl
@[simp] theorem taken_resps : (taken s).resps = s.resps := rfl
@[simp] theorem taken_bufResps : (taken s).bufResps = s.bufResps := rfl
@[simp] theorem taken_hostCmds : (taken s).hostCmds = s.hostCmds := rfl
@[simp] theorem taken_turns : (taken s).turns = s.turns := rfl
@[simp] theorem taken_last : (taken s).last = .taken := rfl
@[simp] theorem taken_uart? (i : Inst) : (taken s).uart? i = s.uart? i := rfl
@[simp] theorem notEnabled_params : (notEnabled s).params = s.params := rfl
@[simp] theorem notEnabled_uarts : (notEnabled s).uarts = s.uarts := rfl
@[simp] theorem notEnabled_cblog : (notEnabled s).cblog = s.cblog := rfl
@[simp] theorem notEnabled_resps : (notEnabled s).resps = s.resps := rfl
@[simp] theorem notEnabled_bufResps : (notEnabled s).bufResps = s.bufResps := rfl
@[simp] theorem notEnabled_hostCmds : (notEnabled s).hostCmds = s.hostCmds := rfl
@[simp] theorem notEnabled_turns : (notEnabled s).turns = s.turns := rfl
@[simp] theorem notEnabled_last : (notEnabled s).last = .notEnabled := rfl
@[simp] theorem notEnabled_uart? (i : Inst) : (notEnabled s).uart? i = s.uart? i := rfl
@[simp] theorem taken_numUart : (taken s).numUart = s.numUart := rfl
@[simp] theorem notEnabled_numUart : (notEnabled s).numUart = s.numUart := rfl
end Reports

section SetUart
variable (s : State) (i : Inst) (u : Uart)
@[simp] theorem setUart_params : (s.setUart i u).params = s.params := rfl
@[simp] theorem setUart_uarts : (s.setUart i u).uarts = s.uarts.set i.toNat u := rfl
@[simp] theorem setUart_cblog : (s.setUart i u).cblog = s.cblog := rfl
@[simp] theorem setUart_resps : (s.setUart i u).resps = s.resps := rfl
@[simp] theorem setUart_bufResps : (s.setUart i u).bufResps = s.bufResps := rfl
@[simp] theorem setUart_hostCmds : (s.setUart i u).hostCmds = s.hostCmds := rfl
@[simp] theorem setUart_turns : (s.setUart i u).turns = s.turns := rfl
@[simp] theorem setUart_last : (s.setUart i u).last = s.last := rfl
@[simp] theorem setUart_numUart : (s.setUart i u).numUart = s.numUart := List.length_set
end SetUart

section SetBuf
variable (u : Uart) (b : Buf)
@[simp] theorem setBuf_rx : u.setBuf .rx b = { u with rxb := b } := rfl
@[simp] theorem setBuf_tx : u.setBuf .tx b = { u with txb := b } := rfl
@[simp] theorem buf_rx : u.buf .rx = u.rxb := rfl
@[simp] theorem buf_tx : u.buf .tx = u.txb := rfl
@[simp] theorem setBuf_desc (d : Side) : (u.setBuf d b).desc = u.desc := by cases d <;> rfl
@[simp] theorem setBuf_ctl (d : Side) : (u.setBuf d b).ctl = u.ctl := by cases d <;> rfl
@[simp] theorem setBuf_per (d : Side) : (u.setBuf d b).per = u.per := by cases d <;> rfl
@[simp] theorem setBuf_grdCnt (d : Side) : (u.setBuf d b).grdCnt = u.grdCnt := by cases d <;> rfl
@[simp] theorem setBuf_wire (d : Side) : (u.setBuf d b).wire = u.wire := by cases d <;> rfl
@[simp] theorem setBuf_same (d : Side) : u.setBuf d (u.buf d) = u := by cases d <;> rfl
@[simp] theorem buf_setBuf (d : Side) : (u.setBuf d b).buf d = b := by cases d <;> rfl
end SetBuf

/-! ### Instances -/

theorem uart?_eq_some_iff {s : State} {i : Inst} {u : Uart} :
    s.uart? i = some u ↔ ∃ h : i.toNat < s.uarts.length, s.uarts[i.toNat] = u := by
  unfold State.uart?
  exact List.getElem?_eq_some_iff

theorem uart?_mem {s : State} {i : Inst} {u : Uart} (h : s.uart? i = some u) : u ∈ s.uarts :=
  List.mem_of_getElem? h

theorem uart?_isSome_iff {s : State} {i : Inst} : (s.uart? i).isSome ↔ i.toNat < s.numUart := by
  simp [State.uart?]

theorem uart?_eq_none_iff {s : State} {i : Inst} : s.uart? i = none ↔ s.numUart ≤ i.toNat := by
  simp [State.uart?]

theorem setUart_uart?_self {s : State} {i : Inst} {u v : Uart} (h : s.uart? i = some u) :
    (s.setUart i v).uart? i = some v := by
  obtain ⟨hi, -⟩ := uart?_eq_some_iff.1 h
  simp [State.uart?, State.setUart, hi]

theorem setUart_uart?_ne {s : State} {i j : Inst} {v : Uart} (h : i ≠ j) :
    (s.setUart i v).uart? j = s.uart? j := by
  have : i.toNat ≠ j.toNat := fun e => h (BitVec.eq_of_toNat_eq e)
  simp [State.uart?, State.setUart, this]

/-- Putting an instance back changes nothing. -/
theorem setUart_self {s : State} {i : Inst} {u : Uart} (h : s.uart? i = some u) :
    s.setUart i u = s := by
  obtain ⟨hi, rfl⟩ := uart?_eq_some_iff.1 h
  simp [State.setUart]

/-! ### How the shared frames of a meaning end -/

theorem onCommand_present {s : State} {i : Inst} {u : Uart} (h : s.uart? i = some u)
    (run : Uart → State) : onCommand i s run = .next (run u) := by
  simp [onCommand, h]

theorem onCommand_absent {s : State} {i : Inst} (h : s.uart? i = none) (run : Uart → State) :
    onCommand i s run = .next (raiseErr s eBadInstance) := by
  simp [onCommand, h]

theorem onEvent_enabled {s : State} {i : Inst} {u : Uart} {enabled : Uart → Bool}
    (h : s.uart? i = some u) (he : enabled u = true) (move : Uart → State) :
    onEvent i s enabled move = .next (taken (move u)) := by
  simp [onEvent, h, he]

theorem onEvent_disabled {s : State} {i : Inst} {u : Uart} {enabled : Uart → Bool}
    (h : s.uart? i = some u) (he : enabled u = false) (move : Uart → State) :
    onEvent i s enabled move = .next (notEnabled s) := by
  simp [onEvent, h, he]

theorem onEvent_absent {s : State} {i : Inst} (h : s.uart? i = none) (enabled : Uart → Bool)
    (move : Uart → State) : onEvent i s enabled move = .refused (.absentInstance i) := by
  simp [onEvent, h]

theorem onBuffer_present {s : State} {id : BufId} {u : Uart} (h : s.uart? id.inst = some u)
    (run : Buf → Buf × BitVec 32) :
    onBuffer id s run =
      .next (bufAnswer (s.setUart id.inst (u.setBuf id.side (run (u.buf id.side)).1))
        (run (u.buf id.side)).2) := by
  simp [onBuffer, h]

/-- Everything a host command can do: the common check answers it, or it ran on its instance. -/
theorem onCommand_cases {s t : State} {i : Inst} {run : Uart → State}
    (h : onCommand i s run = .next t) :
    (s.uart? i = none ∧ t = raiseErr s eBadInstance) ∨
      ∃ u, s.uart? i = some u ∧ t = run u := by
  cases hu : s.uart? i with
  | none =>
    rw [onCommand_absent hu] at h
    exact .inl ⟨rfl, (Host.Outcome.next.inj h).symm⟩
  | some u =>
    rw [onCommand_present hu] at h
    exact .inr ⟨u, rfl, (Host.Outcome.next.inj h).symm⟩

/-- Everything an event can do if it answers a next state: it was taken, or it was not enabled. -/
theorem onEvent_cases {s t : State} {i : Inst} {enabled : Uart → Bool} {move : Uart → State}
    (h : onEvent i s enabled move = .next t) :
    ∃ u, s.uart? i = some u ∧
      ((enabled u = true ∧ t = taken (move u)) ∨ (enabled u = false ∧ t = notEnabled s)) := by
  cases hu : s.uart? i with
  | none => simp [onEvent, hu] at h
  | some u =>
    refine ⟨u, rfl, ?_⟩
    cases he : enabled u with
    | true =>
      rw [onEvent_enabled hu he] at h
      exact .inl ⟨rfl, (Host.Outcome.next.inj h).symm⟩
    | false =>
      rw [onEvent_disabled hu he] at h
      exact .inr ⟨rfl, (Host.Outcome.next.inj h).symm⟩

/-- Everything a bench operation can do if it answers a next state. -/
theorem onBuffer_cases {s t : State} {id : BufId} {run : Buf → Buf × BitVec 32}
    (h : onBuffer id s run = .next t) :
    ∃ u, s.uart? id.inst = some u ∧
      t = bufAnswer (s.setUart id.inst (u.setBuf id.side (run (u.buf id.side)).1))
        (run (u.buf id.side)).2 := by
  cases hu : s.uart? id.inst with
  | none => simp [onBuffer, hu] at h
  | some u =>
    rw [onBuffer_present hu] at h
    exact ⟨u, rfl, (Host.Outcome.next.inj h).symm⟩

end Sys2Proof.Machine
end

