-- ==== Sys2Proof/Laws/Engines.lean ====
section
/-! SUPPORT. What the receive engine, the transmit engine and the sequences of `BEGIN` and `END` do to
an instance, field by field (42_dispatch.md R172 to R174; 41_controller.md R133, R134). -/

namespace Sys2Proof.Machine

section Sequences
variable (p : Params) (u : Uart) (m : Byte) (f : Frame) (baud : BitVec 32)

/-- All that an accepted `BEGIN` leaves (R133). -/
theorem beginSequence_eq :
    beginSequence p u m f baud =
      { desc := u.desc
        ctl := { u.ctl with life := .active, baud := baud, mode := m }
        per := { u.per with
          clkEn := true, rxIrqEn := true, txIrqEn := false, rxReady := false, txEmpty := true
          txComplete := true, shBusy := false, brr := Config.baudDiv p.fClk baud
          wl := f.wl, par := f.par, stop := f.stop
          txPinApplied := u.ctl.txPin, rxPinApplied := u.ctl.rxPin }
        rxb := clear u.rxb, txb := clear u.txb
        grdCnt := if u.desc.bootGuardEn then 0 else u.grdCnt
        wire := u.wire } := rfl

/-- All that `END` leaves (R134). -/
theorem endSequence_eq :
    endSequence u =
      { u with
        ctl := { u.ctl with life := .idle }
        per := { u.per with
          clkEn := false, rxIrqEn := false, txIrqEn := false, rxReady := false, txEmpty := true
          txComplete := true, shBusy := false }
        rxb := clear u.rxb, txb := clear u.txb } := rfl
end Sequences

section Receive
variable (p : Params) (u : Uart)

theorem receivePart_callback (h : u.ctl.cbAttached = true) :
    receivePart p u = ({ u with per := { u.per with rxReady := false } }, some u.per.rxData) := by
  simp [receivePart, h]

theorem receivePart_buffered (h : u.ctl.cbAttached = false) :
    receivePart p u =
      ({ u with
          per := { u.per with rxReady := false }
          rxb := (store (slots p) u.rxb u.per.rxData).1 }, none) := by
  simp [receivePart, h]

/-- The receive engine writes `rx_ready`, and `RXB` where it stores; nothing else (R172). -/
theorem receivePart_frame :
    (receivePart p u).1 =
      { u with
        per := { u.per with rxReady := false }
        rxb := (receivePart p u).1.rxb } := by
  cases h : u.ctl.cbAttached with
  | true => rw [receivePart_callback p u h]
  | false => rw [receivePart_buffered p u h]
end Receive

section Transmit
variable (p : Params) (i : Inst) (u : Uart)

theorem transmitPart_empty (h : isEmpty u.txb = true) :
    transmitPart p i u = { u with per := { u.per with txIrqEn := false } } := by
  simp [transmitPart, readByte_empty _ h, h]

theorem transmitPart_queued (h : isEmpty u.txb = false) :
    transmitPart p i u =
      { u with
        txb := (readByte ⟨i, .tx⟩ (slots p) u.txb).1
        per := { u.per with
          txData := slotByte ⟨i, .tx⟩ u.txb.mem u.txb.r, txEmpty := false, txComplete := false
          txIrqEn :=
            if isEmpty (readByte ⟨i, .tx⟩ (slots p) u.txb).1 then false else u.per.txIrqEn } } := by
  simp only [transmitPart, readByte_some _ h]
  split <;> rfl

/-- The transmit engine writes `TXB`, the transmit register with its two flags, and the
transmit-interrupt enable; nothing else (R173). -/
theorem transmitPart_frame :
    transmitPart p i u =
      { u with
        txb := (transmitPart p i u).txb
        per := { u.per with
          txData := (transmitPart p i u).per.txData
          txEmpty := (transmitPart p i u).per.txEmpty
          txComplete := (transmitPart p i u).per.txComplete
          txIrqEn := (transmitPart p i u).per.txIrqEn } } := by
  cases h : isEmpty u.txb with
  | true => rw [transmitPart_empty p i u h]
  | false => rw [transmitPart_queued p i u h]

/-- After the transmit engine the TX event is gone (R174). -/
theorem transmitPart_txEv : txEv (transmitPart p i u) = false := by
  cases h : isEmpty u.txb with
  | true => simp [transmitPart_empty p i u h, txEv]
  | false => simp [transmitPart_queued p i u h, txEv]
end Transmit

section Service
variable (p : Params) (i : Inst) (u : Uart)

theorem serviceBoth_both (hr : rxEv u = true) (ht : txEv u = true) :
    serviceBoth p i u = (transmitPart p i (receivePart p u).1, (receivePart p u).2) := by
  simp [serviceBoth, hr, ht]

theorem serviceBoth_rx (hr : rxEv u = true) (ht : txEv u = false) :
    serviceBoth p i u = receivePart p u := by
  simp [serviceBoth, hr, ht]

theorem serviceBoth_tx (hr : rxEv u = false) (ht : txEv u = true) :
    serviceBoth p i u = (transmitPart p i u, none) := by
  simp [serviceBoth, hr, ht]

/-- The four cases of one ISR entry (R174). -/
theorem serviceBoth_cases :
    (rxEv u = true ∧ txEv u = true ∧
        serviceBoth p i u = (transmitPart p i (receivePart p u).1, (receivePart p u).2)) ∨
      (rxEv u = true ∧ txEv u = false ∧ serviceBoth p i u = receivePart p u) ∨
      (rxEv u = false ∧ txEv u = true ∧ serviceBoth p i u = (transmitPart p i u, none)) ∨
      (rxEv u = false ∧ txEv u = false ∧ serviceBoth p i u = (u, none)) := by
  cases hr : rxEv u <;> cases ht : txEv u <;> simp [serviceBoth, hr, ht]

/-- What one ISR entry leaves unchanged, whichever events are pending: the descriptor, the controller
registers, the guard counter, `WIRE`, and the indices the host owns (R174; 10_state.md R26). -/
theorem serviceBoth_fields :
    (serviceBoth p i u).1.desc = u.desc ∧ (serviceBoth p i u).1.ctl = u.ctl ∧
      (serviceBoth p i u).1.grdCnt = u.grdCnt ∧ (serviceBoth p i u).1.wire = u.wire ∧
      (serviceBoth p i u).1.rxb.r = u.rxb.r ∧ (serviceBoth p i u).1.txb.w = u.txb.w := by
  have hrx : ∀ v : Uart, (receivePart p v).1.rxb.r = v.rxb.r := by
    intro v
    cases h : v.ctl.cbAttached with
    | true => rw [receivePart_callback p v h]
    | false =>
      rw [receivePart_buffered p v h]
      simp only [store]
      split <;> rfl
  have htx : ∀ v : Uart, (transmitPart p i v).txb.w = v.txb.w := by
    intro v
    cases h : isEmpty v.txb with
    | true => rw [transmitPart_empty p i v h]
    | false => rw [transmitPart_queued p i v h, readByte_some _ h]
  obtain ⟨-, -, h⟩ | ⟨-, -, h⟩ | ⟨-, -, h⟩ | ⟨-, -, h⟩ := serviceBoth_cases p i u <;> rw [h]
  · refine ⟨?_, ?_, ?_, ?_, ?_, ?_⟩ <;> (try rw [htx]) <;> (try rw [transmitPart_frame]) <;>
      first | exact hrx u | rw [receivePart_frame]
  · refine ⟨?_, ?_, ?_, ?_, hrx u, ?_⟩ <;> rw [receivePart_frame]
  · refine ⟨?_, ?_, ?_, ?_, ?_, htx u⟩ <;> rw [transmitPart_frame]
  · simp
end Service

end Sys2Proof.Machine
end

