-- ==== Sys2Proof/Laws/Operands.lean ====
section
/-! SUPPORT. The mode byte: an accepted one has a frame, and no other has (30_encoding.md R84, R85). -/

namespace Sys2Proof.Machine

theorem decodeMode_not_ok {m : Byte} (h : modeOk m = false) : decodeMode m = none := by
  simp [decodeMode, h]

/-- Every accepted mode byte decodes: none has `m[5:4] = 0b01`. -/
theorem decodeMode_isSome (m : Byte) : (decodeMode m).isSome = modeOk m := by
  cases h : modeOk m with
  | false => rw [decodeMode_not_ok h]; rfl
  | true =>
    have : ∀ x ∈ modeBytes, (decodeMode x).isSome = true := by decide
    exact this m (by simpa [modeOk] using h)

theorem decodeMode_ok {m : Byte} (h : modeOk m = true) : ∃ f, decodeMode m = some f := by
  rw [← decodeMode_isSome] at h
  exact Option.isSome_iff_exists.1 h

theorem modeOk_of_decodeMode {m : Byte} {f : Frame} (h : decodeMode m = some f) :
    modeOk m = true := by
  rw [← decodeMode_isSome, h]
  rfl

end Sys2Proof.Machine
end

