-- ==== Sys2Proof/Laws/PerInstr.lean ====
section
/-! SUPPORT. One lemma per constructor of Instr: the encoder puts each operation's word on the port its
table row names (30_encoding.md R80, R83, R88, R91). -/

namespace Sys2Proof.Laws.Port

/-- The canonical word of an operation is a word of the operation's own port. -/
def Statement (i : Instr) : Prop := (encode i).port = i.port

theorem setpins (inst : Inst) (txp rxp : Byte) : Statement (.setpins inst txp rxp) := rfl
theorem beginUart (inst : Inst) (mode : Byte) (baud : BitVec 32) :
    Statement (.beginUart inst mode baud) := rfl
theorem endUart (inst : Inst) : Statement (.endUart inst) := rfl
theorem available (inst : Inst) : Statement (.available inst) := rfl
theorem peek (inst : Inst) : Statement (.peek inst) := rfl
theorem read (inst : Inst) : Statement (.read inst) := rfl
theorem flush (inst : Inst) : Statement (.flush inst) := rfl
theorem writecomplete (inst : Inst) : Statement (.writecomplete inst) := rfl
theorem write (inst : Inst) (byte : Byte) : Statement (.write inst byte) := rfl
theorem attach (inst : Inst) : Statement (.attach inst) := rfl
theorem detach (inst : Inst) : Statement (.detach inst) := rfl
theorem bool (inst : Inst) : Statement (.bool inst) := rfl
theorem bufStore (b : BufId) (din : Byte) : Statement (.bufStore b din) := rfl
theorem bufRead (b : BufId) : Statement (.bufRead b) := rfl
theorem bufPeek (b : BufId) : Statement (.bufPeek b) := rfl
theorem bufAvail (b : BufId) : Statement (.bufAvail b) := rfl
theorem bufIsfull (b : BufId) : Statement (.bufIsfull b) := rfl
theorem bufClear (b : BufId) : Statement (.bufClear b) := rfl
theorem dispatch (inst : Inst) : Statement (.dispatch inst) := rfl
theorem rxArrive (inst : Inst) (byte : Byte) (keep : Bool) :
    Statement (.rxArrive inst byte keep) := rfl
theorem txLoad (inst : Inst) : Statement (.txLoad inst) := rfl
theorem txShiftDone (inst : Inst) : Statement (.txShiftDone inst) := rfl
theorem tick : Statement .tick := rfl

end Sys2Proof.Laws.Port
end

