-- ==== Sys2Proof/Laws/Step.lean ====
section
/-! SUPPORT. What a step can do, said once: how one operation changes its instance, and what else of
the core an operation or a step changes. -/

namespace Sys2Proof.Machine

/-- How operation `i` can change its instance, under parameters `p` (each constructor cites the rule
its effect is from). -/
inductive Change (p : Params) : Instr → Uart → Uart → Prop
  /-- 41_controller.md R131. -/
  | setpins (i tx rx u) :
      Change p (.setpins i tx rx) u { u with ctl := { u.ctl with txPin := tx, rxPin := rx } }
  /-- R133. -/
  | begin (i m baud u f) (hm : decodeMode m = some f) (hb : baud ≠ 0) :
      Change p (.beginUart i m baud) u (beginSequence p u m f baud)
  /-- R134. -/
  | ending (i u) : Change p (.endUart i) u (endSequence u)
  /-- R137. -/
  | read (i u) :
      Change p (.read i) u { u with rxb := (readByte ⟨i, .rx⟩ (slots p) u.rxb).1 }
  /-- R140. -/
  | write (i v u) (ha : u.ctl.life = .active) (hg : guardActive p u = false) :
      Change p (.write i v) u
        { u with
          per := { u.per with txIrqEn := true }
          txb := (store (slots p) u.txb v).1 }
  /-- R142. -/
  | attach (i u) : Change p (.attach i) u { u with ctl := { u.ctl with cbAttached := true } }
  /-- R143. -/
  | detach (i u) : Change p (.detach i) u { u with ctl := { u.ctl with cbAttached := false } }
  /-- 40_buffer.md R112. -/
  | bufStore (id v u) :
      Change p (.bufStore id v) u (u.setBuf id.side (store (slots p) (u.buf id.side) v).1)
  /-- R113. -/
  | bufRead (id u) :
      Change p (.bufRead id) u (u.setBuf id.side (readByte id (slots p) (u.buf id.side)).1)
  /-- R117. -/
  | bufClear (id u) : Change p (.bufClear id) u (u.setBuf id.side (clear (u.buf id.side)))
  /-- 42_dispatch.md R174. -/
  | dispatch (i u) (he : irq u = true) : Change p (.dispatch i) u (serviceBoth p i u).1
  /-- 43_environment_timer.md R191. -/
  | rxArrive (i v k u) (he : rxArriveEnabled u = true) :
      Change p (.rxArrive i v k) u
        { u with per := { u.per with
          rxData := if u.per.rxReady && k then u.per.rxData else v
          rxReady := true } }
  /-- R192. -/
  | txLoad (i u) (he : txLoadEnabled u = true) :
      Change p (.txLoad i) u
        { u with per := { u.per with shData := u.per.txData, shBusy := true, txEmpty := true } }
  /-- R193. -/
  | txShiftDone (i u) (he : txShiftDoneEnabled u = true) :
      Change p (.txShiftDone i) u
        { u with
          wire := u.wire ++ [u.per.shData]
          per := { u.per with
            shBusy := false
            txComplete := if u.per.txEmpty then true else u.per.txComplete } }

/-- The instances after an operation: as before, or one of them changed as its rule says, or, for
`TICK`, each ticked. -/
def UartsAfter (i : Instr) (s t : State) : Prop :=
  t.uarts = s.uarts ∨
    (∃ j u u', i.inst? = some j ∧ s.uart? j = some u ∧ Change s.params i u u' ∧
      t.uarts = s.uarts.set j.toNat u') ∨
    (i = .tick ∧ t.uarts = s.uarts.map (tickUart s.params))

theorem UartsAfter.changed {i : Instr} {s t : State} {j : Inst} {u u' : Uart}
    (hj : i.inst? = some j) (hu : s.uart? j = some u) (hc : Change s.params i u u')
    (ht : t.uarts = s.uarts.set j.toNat u') : UartsAfter i s t :=
  .inr (.inl ⟨j, u, u', hj, hu, hc, ht⟩)

/-- Everything an operation that answers a next state does to the instances, and that it writes
neither the parameters nor the schedule. -/
theorem exec_next {i : Instr} {s t : State} (h : exec i s = .next t) :
    t.params = s.params ∧ t.turns = s.turns ∧ UartsAfter i s t := by
  cases i with
  | setpins i tx rx =>
    obtain ⟨-, rfl⟩ | ⟨u, hu, rfl⟩ := onCommand_cases h
    · exact ⟨rfl, rfl, .inl rfl⟩
    · exact ⟨rfl, rfl, .changed rfl hu (.setpins i tx rx u) rfl⟩
  | beginUart i m baud =>
    obtain ⟨-, rfl⟩ | ⟨u, hu, rfl⟩ := onCommand_cases h
    · exact ⟨rfl, rfl, .inl rfl⟩
    · cases hm : decodeMode m with
      | none => exact ⟨rfl, rfl, .inl rfl⟩
      | some f =>
        dsimp only
        split
        · exact ⟨rfl, rfl, .inl rfl⟩
        · next hb => exact ⟨rfl, rfl, .changed rfl hu (.begin i m baud u f hm hb) rfl⟩
  | endUart i =>
    obtain ⟨-, rfl⟩ | ⟨u, hu, rfl⟩ := onCommand_cases h
    · exact ⟨rfl, rfl, .inl rfl⟩
    · exact ⟨rfl, rfl, .changed rfl hu (.ending i u) rfl⟩
  | available i =>
    obtain ⟨-, rfl⟩ | ⟨u, hu, rfl⟩ := onCommand_cases h <;> exact ⟨rfl, rfl, .inl rfl⟩
  | peek i =>
    obtain ⟨-, rfl⟩ | ⟨u, hu, rfl⟩ := onCommand_cases h <;> exact ⟨rfl, rfl, .inl rfl⟩
  | read i =>
    obtain ⟨-, rfl⟩ | ⟨u, hu, rfl⟩ := onCommand_cases h
    · exact ⟨rfl, rfl, .inl rfl⟩
    · exact ⟨rfl, rfl, .changed rfl hu (.read i u) rfl⟩
  | flush i =>
    obtain ⟨-, rfl⟩ | ⟨u, hu, rfl⟩ := onCommand_cases h
    · exact ⟨rfl, rfl, .inl rfl⟩
    · split <;> exact ⟨rfl, rfl, .inl rfl⟩
  | writecomplete i =>
    obtain ⟨-, rfl⟩ | ⟨u, hu, rfl⟩ := onCommand_cases h <;> exact ⟨rfl, rfl, .inl rfl⟩
  | write i v =>
    obtain ⟨-, rfl⟩ | ⟨u, hu, rfl⟩ := onCommand_cases h
    · exact ⟨rfl, rfl, .inl rfl⟩
    · split
      · exact ⟨rfl, rfl, .inl rfl⟩
      · next ha =>
        split
        · exact ⟨rfl, rfl, .inl rfl⟩
        · next hg =>
          refine ⟨rfl, rfl, .changed rfl hu (.write i v u ?_ ?_) rfl⟩
          · exact not_not.1 ha
          · simpa using hg
  | attach i =>
    obtain ⟨-, rfl⟩ | ⟨u, hu, rfl⟩ := onCommand_cases h
    · exact ⟨rfl, rfl, .inl rfl⟩
    · exact ⟨rfl, rfl, .changed rfl hu (.attach i u) rfl⟩
  | detach i =>
    obtain ⟨-, rfl⟩ | ⟨u, hu, rfl⟩ := onCommand_cases h
    · exact ⟨rfl, rfl, .inl rfl⟩
    · exact ⟨rfl, rfl, .changed rfl hu (.detach i u) rfl⟩
  | bool i =>
    obtain ⟨-, rfl⟩ | ⟨u, hu, rfl⟩ := onCommand_cases h <;> exact ⟨rfl, rfl, .inl rfl⟩
  | bufStore id v =>
    simp only [exec, execBufStore] at h
    obtain ⟨u, hu, rfl⟩ := onBuffer_cases h
    exact ⟨rfl, rfl, .changed rfl hu (.bufStore id v u) rfl⟩
  | bufRead id =>
    simp only [exec, execBufRead] at h
    obtain ⟨u, hu, rfl⟩ := onBuffer_cases h
    exact ⟨rfl, rfl, .changed rfl hu (.bufRead id u) rfl⟩
  | bufPeek id =>
    simp only [exec, execBufPeek] at h
    obtain ⟨u, hu, rfl⟩ := onBuffer_cases h
    exact ⟨rfl, rfl, .inl (by simp [setUart_self hu])⟩
  | bufAvail id =>
    simp only [exec, execBufAvail] at h
    obtain ⟨u, hu, rfl⟩ := onBuffer_cases h
    exact ⟨rfl, rfl, .inl (by simp [setUart_self hu])⟩
  | bufIsfull id =>
    simp only [exec, execBufIsfull] at h
    obtain ⟨u, hu, rfl⟩ := onBuffer_cases h
    exact ⟨rfl, rfl, .inl (by simp [setUart_self hu])⟩
  | bufClear id =>
    simp only [exec, execBufClear] at h
    obtain ⟨u, hu, rfl⟩ := onBuffer_cases h
    exact ⟨rfl, rfl, .changed rfl hu (.bufClear id u) rfl⟩
  | dispatch i =>
    obtain ⟨u, hu, ⟨he, rfl⟩ | ⟨-, rfl⟩⟩ := onEvent_cases h
    · exact ⟨rfl, rfl, .changed rfl hu (.dispatch i u he) rfl⟩
    · exact ⟨rfl, rfl, .inl rfl⟩
  | rxArrive i v k =>
    obtain ⟨u, hu, ⟨he, rfl⟩ | ⟨-, rfl⟩⟩ := onEvent_cases h
    · exact ⟨rfl, rfl, .changed rfl hu (.rxArrive i v k u he) rfl⟩
    · exact ⟨rfl, rfl, .inl rfl⟩
  | txLoad i =>
    obtain ⟨u, hu, ⟨he, rfl⟩ | ⟨-, rfl⟩⟩ := onEvent_cases h
    · exact ⟨rfl, rfl, .changed rfl hu (.txLoad i u he) rfl⟩
    · exact ⟨rfl, rfl, .inl rfl⟩
  | txShiftDone i =>
    obtain ⟨u, hu, ⟨he, rfl⟩ | ⟨-, rfl⟩⟩ := onEvent_cases h
    · exact ⟨rfl, rfl, .changed rfl hu (.txShiftDone i u he) rfl⟩
    · exact ⟨rfl, rfl, .inl rfl⟩
  | tick =>
    obtain rfl := Host.Outcome.next.inj h
    exact ⟨rfl, rfl, .inr (.inr ⟨rfl, rfl⟩)⟩

/-- What an operation that answers a next state does to the instance at `j`: nothing, or what its rule
says, or a tick. -/
theorem exec_uart {i : Instr} {s t : State} {j : Inst} {u u' : Uart} (h : exec i s = .next t)
    (hu : s.uart? j = some u) (hu' : t.uart? j = some u') :
    u' = u ∨ (i.inst? = some j ∧ Change s.params i u u') ∨
      (i = .tick ∧ u' = tickUart s.params u) := by
  have out : ∀ {us : List Uart}, t.uarts = us → us[j.toNat]? = some u' :=
    fun ht => ht ▸ hu'
  obtain ⟨-, -, ht | ⟨k, v, v', hk, hv, hc, ht⟩ | ⟨hi, ht⟩⟩ := exec_next h
  · exact .inl (Option.some.inj ((out ht).symm.trans hu))
  · by_cases hkj : k = j
    · subst hkj
      obtain rfl := Option.some.inj (hu.symm.trans hv)
      have := (out ht).symm.trans (setUart_uart?_self (v := v') hu)
      exact .inr (.inl ⟨hk, Option.some.inj this ▸ hc⟩)
    · have := (out ht).symm.trans (setUart_uart?_ne (s := s) (v := v') hkj)
      exact .inl (Option.some.inj (this.trans hu))
  · have hm : (s.uarts.map (tickUart s.params))[j.toNat]? = some (tickUart s.params u) := by
      rw [List.getElem?_map]
      exact congrArg (Option.map _) hu
    exact .inr (.inr ⟨hi, Option.some.inj ((out ht).symm.trans hm)⟩)

/-- No change of an instance touches its descriptor. -/
theorem Change.desc_eq {p : Params} {i : Instr} {u u' : Uart} (h : Change p i u u') :
    u'.desc = u.desc := by
  cases h <;> first | rfl | exact setBuf_desc _ _ _ | exact (serviceBoth_fields _ _ _).1

/-- Everything a host command does at its port and to the logs: an error response to an unchanged core,
a response that leaves the streams and the logs as before it, or a `FLUSH` that holds. -/
theorem command_cases {i : Instr} {s t : State} (hp : i.port = .host) (h : exec i s = .next t) :
    (∃ c ∈ [eBadInstance, eBadMode, eBadBaud, eNotActive], t = raiseErr s c) ∨
      (∃ v s', t = respond s' v ∧ s'.resps = s.resps ∧ s'.hostCmds = s.hostCmds ∧
        s'.cblog = s.cblog ∧ s'.bufResps = s.bufResps) ∨
      ((∃ j, i = .flush j) ∧ t = notEnabled s) := by
  have absent : t = raiseErr s eBadInstance →
      ∃ c ∈ [eBadInstance, eBadMode, eBadBaud, eNotActive], t = raiseErr s c :=
    fun ht => ⟨_, by simp, ht⟩
  have answered : ∀ {v : BitVec 32} {s' : State}, t = respond s' v → s'.resps = s.resps →
      s'.hostCmds = s.hostCmds → s'.cblog = s.cblog → s'.bufResps = s.bufResps →
      ∃ v s', t = respond s' v ∧ s'.resps = s.resps ∧ s'.hostCmds = s.hostCmds ∧
        s'.cblog = s.cblog ∧ s'.bufResps = s.bufResps :=
    fun h1 h2 h3 h4 h5 => ⟨_, _, h1, h2, h3, h4, h5⟩
  cases i with
  | bufStore | bufRead | bufPeek | bufAvail | bufIsfull | bufClear | dispatch | rxArrive | txLoad
  | txShiftDone | tick => simp [Instr.port] at hp
  | beginUart i m baud =>
    obtain ⟨-, ht⟩ | ⟨u, -, ht⟩ := onCommand_cases h
    · exact .inl (absent ht)
    · cases hm : decodeMode m with
      | none => exact .inl ⟨eBadMode, by simp, by simpa [hm] using ht⟩
      | some f =>
        by_cases hb : baud = 0
        · exact .inl ⟨eBadBaud, by simp, by simpa [hm, hb] using ht⟩
        · simp only [hm, hb, if_false] at ht
          exact .inr (.inl (answered ht rfl rfl rfl rfl))
  | flush i =>
    obtain ⟨-, ht⟩ | ⟨u, -, ht⟩ := onCommand_cases h
    · exact .inl (absent ht)
    · cases hi : txIdle u with
      | true =>
        simp only [hi, if_true] at ht
        exact .inr (.inl (answered ht rfl rfl rfl rfl))
      | false => exact .inr (.inr ⟨⟨i, rfl⟩, by simpa [hi] using ht⟩)
  | write i v =>
    obtain ⟨-, ht⟩ | ⟨u, -, ht⟩ := onCommand_cases h
    · exact .inl (absent ht)
    · by_cases ha : u.ctl.life = .active
      · cases hg : guardActive s.params u with
        | true =>
          simp only [ha, hg, ne_eq, not_true_eq_false, if_false, if_true] at ht
          exact .inr (.inl (answered ht rfl rfl rfl rfl))
        | false =>
          simp only [ha, hg, ne_eq, not_true_eq_false, if_false, Bool.false_eq_true] at ht
          exact .inr (.inl (answered ht rfl rfl rfl rfl))
      · exact .inl ⟨eNotActive, by simp, by simpa [ha] using ht⟩
  | setpins | endUart | available | peek | read | writecomplete | attach | detach | bool =>
    obtain ⟨-, ht⟩ | ⟨u, -, ht⟩ := onCommand_cases h
    · exact .inl (absent ht)
    · exact .inr (.inl (answered ht rfl rfl rfl rfl))

/-- Everything a step that answers a next state can be: the operation the turn asks for, the answer to
a reserved command or buffer operation, or a host turn with no command to issue. -/
theorem step_cases {s t : State} (h : step s = .next t) :
    ∃ turn rest, s.turns = turn :: rest ∧
      ((∃ i, asked turn { s with turns := rest } = .op i ∧
          exec i { s with turns := rest } = .next t) ∨
        (asked turn { s with turns := rest } = .reservedOp ∧
          t = raiseErr { s with turns := rest } eReservedOp) ∨
        (asked turn { s with turns := rest } = .reservedBop ∧
          t = bufAnswer { s with turns := rest } reservedBufResp) ∨
        (asked turn { s with turns := rest } = .nothing ∧
          t = notEnabled { s with turns := rest })) := by
  unfold step at h
  cases hts : s.turns with
  | nil => simp [hts] at h
  | cons turn rest =>
    refine ⟨turn, rest, rfl, ?_⟩
    simp only [hts] at h
    split at h
    · next i ha => exact .inl ⟨i, ha, h⟩
    · next ha => exact .inr (.inl ⟨ha, (Host.Outcome.next.inj h).symm⟩)
    · next ha => exact .inr (.inr (.inl ⟨ha, (Host.Outcome.next.inj h).symm⟩))
    · next ha => exact .inr (.inr (.inr ⟨ha, (Host.Outcome.next.inj h).symm⟩))
    · simp at h

/-- The instances after a step: as before, or as an operation the turn asks for leaves them. -/
theorem step_uarts {s t : State} (h : step s = .next t) :
    t.params = s.params ∧
      ∃ turn rest, s.turns = turn :: rest ∧ t.turns = rest ∧
        (t.uarts = s.uarts ∨
          ∃ i, asked turn { s with turns := rest } = .op i ∧
            UartsAfter i { s with turns := rest } t) := by
  obtain ⟨turn, rest, hts, ⟨i, ha, he⟩ | ⟨-, rfl⟩ | ⟨-, rfl⟩ | ⟨-, rfl⟩⟩ := step_cases h
  · obtain ⟨hp, htu, hu⟩ := exec_next he
    exact ⟨hp, turn, rest, hts, htu, .inr ⟨i, ha, hu⟩⟩
  · exact ⟨rfl, turn, rest, hts, rfl, .inl rfl⟩
  · exact ⟨rfl, turn, rest, hts, rfl, .inl rfl⟩
  · exact ⟨rfl, turn, rest, hts, rfl, .inl rfl⟩

/-- A property of single instances that every change keeps is kept by every operation. -/
theorem UartsAfter.all {P : Params → Uart → Prop} {i : Instr} {s t : State}
    (h : UartsAfter i s t) (hall : ∀ u ∈ s.uarts, P s.params u)
    (hchange : ∀ u u', u ∈ s.uarts → Change s.params i u u' → P s.params u → P s.params u')
    (htick : ∀ u, u ∈ s.uarts → P s.params u → P s.params (tickUart s.params u)) :
    ∀ u ∈ t.uarts, P s.params u := by
  obtain ht | ⟨j, u, u', -, hu, hc, ht⟩ | ⟨-, ht⟩ := h
  · rw [ht]
    exact hall
  · rw [ht]
    intro v hv
    rcases List.mem_or_eq_of_mem_set hv with hv | rfl
    · exact hall v hv
    · exact hchange u _ (uart?_mem hu) hc (hall u (uart?_mem hu))
  · rw [ht]
    intro v hv
    obtain ⟨u, hu, rfl⟩ := List.mem_map.1 hv
    exact htick u hu (hall u hu)

end Sys2Proof.Machine
end

