-- ==== Sys2Proof/Laws/Words.lean ====
section
/-! SUPPORT. Each field of a word reads back from the word built of its fields (30_encoding.md R81,
R88, R90). -/

namespace Sys2Proof

/-- Taking `n` low bits off a concatenation whose low part is longer. -/
theorem extract_append_low {a b : Nat} (x : BitVec a) (y : BitVec b) (lo n : Nat) (h : lo + n ≤ b) :
    (x ++ y).extractLsb' lo n = y.extractLsb' lo n := by
  apply BitVec.eq_of_getLsbD_eq
  intro i hi
  simp only [BitVec.getLsbD_extractLsb', hi, decide_true, Bool.true_and, BitVec.getLsbD_append]
  rw [if_pos (by omega)]

/-- Taking bits off a concatenation above its low part. -/
theorem extract_append_high {a b : Nat} (x : BitVec a) (y : BitVec b) (lo n : Nat) (h : b ≤ lo) :
    (x ++ y).extractLsb' lo n = x.extractLsb' (lo - b) n := by
  apply BitVec.eq_of_getLsbD_eq
  intro i hi
  simp only [BitVec.getLsbD_extractLsb', hi, decide_true, Bool.true_and, BitVec.getLsbD_append]
  rw [if_neg (by omega)]
  congr 1
  omega

/-- All the bits of a field are the field. -/
theorem extract_all {a : Nat} (x : BitVec a) : x.extractLsb' 0 a = x := by
  apply BitVec.eq_of_getLsbD_eq
  intro i hi
  simp [hi]

section CmdWord
variable (op inst : BitVec 4) (b8 txp rxp : Byte) (baud : BitVec 32)

theorem cmdWord_op : (cmdWord op inst b8 txp rxp baud).extractLsb' 0 4 = op := by
  unfold cmdWord
  rw [extract_append_low _ _ _ _ (by omega), extract_all]

theorem cmdWord_inst : (cmdWord op inst b8 txp rxp baud).extractLsb' 4 4 = inst := by
  unfold cmdWord
  rw [extract_append_high _ _ _ _ (by omega), extract_append_low _ _ _ _ (by omega), extract_all]

theorem cmdWord_b8 : (cmdWord op inst b8 txp rxp baud).extractLsb' 8 8 = b8 := by
  unfold cmdWord
  rw [extract_append_high _ _ _ _ (by omega), extract_append_high _ _ _ _ (by omega),
    extract_append_low _ _ _ _ (by omega), extract_all]

theorem cmdWord_txp : (cmdWord op inst b8 txp rxp baud).extractLsb' 16 8 = txp := by
  unfold cmdWord
  rw [extract_append_high _ _ _ _ (by omega), extract_append_high _ _ _ _ (by omega),
    extract_append_high _ _ _ _ (by omega), extract_append_low _ _ _ _ (by omega), extract_all]

theorem cmdWord_rxp : (cmdWord op inst b8 txp rxp baud).extractLsb' 24 8 = rxp := by
  unfold cmdWord
  rw [extract_append_high _ _ _ _ (by omega), extract_append_high _ _ _ _ (by omega),
    extract_append_high _ _ _ _ (by omega), extract_append_high _ _ _ _ (by omega),
    extract_append_low _ _ _ _ (by omega), extract_all]

theorem cmdWord_baud : (cmdWord op inst b8 txp rxp baud).extractLsb' 32 32 = baud := by
  unfold cmdWord
  rw [extract_append_high _ _ _ _ (by omega), extract_append_high _ _ _ _ (by omega),
    extract_append_high _ _ _ _ (by omega), extract_append_high _ _ _ _ (by omega),
    extract_append_high _ _ _ _ (by omega), extract_all]
end CmdWord

section BufWord
variable (bop : BitVec 3) (din : Byte)

theorem bufWord_bop : (bufWord bop din).extractLsb' 0 3 = bop := by
  unfold bufWord
  rw [extract_append_low _ _ _ _ (by omega), extract_all]

theorem bufWord_din : (bufWord bop din).extractLsb' 8 8 = din := by
  unfold bufWord
  rw [extract_append_high _ _ _ _ (by omega), extract_append_high _ _ _ _ (by omega), extract_all]
end BufWord

section EvtWord
variable (ec inst : BitVec 4) (byte : Byte) (keep : Bool)

theorem evtWord_ec : (evtWord ec inst byte keep).extractLsb' 0 4 = ec := by
  unfold evtWord
  rw [extract_append_low _ _ _ _ (by omega), extract_all]

theorem evtWord_inst : (evtWord ec inst byte keep).extractLsb' 4 4 = inst := by
  unfold evtWord
  rw [extract_append_high _ _ _ _ (by omega), extract_append_low _ _ _ _ (by omega), extract_all]

theorem evtWord_byte : (evtWord ec inst byte keep).extractLsb' 8 8 = byte := by
  unfold evtWord
  rw [extract_append_high _ _ _ _ (by omega), extract_append_high _ _ _ _ (by omega),
    extract_append_low _ _ _ _ (by omega), extract_all]

theorem evtWord_keep : (evtWord ec inst byte keep).getLsbD 16 = keep := by
  unfold evtWord
  simp only [BitVec.getLsbD_append]
  cases keep <;> rfl

theorem evtWord_keep_getElem : (evtWord ec inst byte keep)[16] = keep := by
  rw [← BitVec.getLsbD_eq_getElem]
  exact evtWord_keep ec inst byte keep
end EvtWord

end Sys2Proof
end

