-- ==== Sys2Proof/Tests/Slice0.lean ====
section
/-! SUPPORT. Tests of one step or one word each, their expected results from spec/95_test_vectors.md or
worked out by hand from the rule cited, and for every statement with hypotheses a state and operands
that meet them. -/

namespace Sys2Proof.Tests

open Sys2Proof.Machine

/-! ### A small core: `N = 4`, `GUARD_TICKS = 3`, instance 0 guarded -/

/-- A descriptor with default pins `2k + 1` and `2k + 2`. -/
def dev (k : Nat) (guarded : Bool) : Descriptor where
  bootGuardEn := guarded
  defaultTxPin := BitVec.ofNat 8 (2 * k + 1)
  defaultRxPin := BitVec.ofNat 8 (2 * k + 2)
  vecId := 10 + k

def core : State :=
  State.resetWith { iw := 2, guardTicks := 3, tickMicros := 1000, fClk := 16000000 }
    [dev 0 true, dev 1 false, dev 2 false]

/-- The state after some operations. -/
def after (is : List Instr) : State :=
  match execAll is core with
  | .next t => t
  | .fault _ | .refused _ => core

/-- Instance 1 after `begin 1, 9600` and some more. -/
def running (is : List Instr) : State := after (.beginUart 1 0x06 9600 :: is)

/-- `core` with a schedule and a pending command. -/
def offered (t : Turn) (w : CmdWord) : State := { core with turns := [t], hostCmds := [w] }

/-- A field of the next state. -/
def got {α : Type} (o : Out) (f : State → α) : Option α :=
  match o with
  | .next t => some (f t)
  | .fault _ | .refused _ => none

/-- A field of an instance of the next state. -/
def gotUart {α : Type} (o : Out) (j : Inst) (f : Uart → α) : Option α :=
  (got o fun t => (t.uart? j).map f).join

def resps (o : Out) : Option (List Resp) := got o fun t => t.resps

def bufResps (o : Out) : Option (List (BitVec 32)) := got o fun t => t.bufResps

/-- Four slots with `'H'`, `'I'` at 3 and 0: `w = 1`, `r = 3`, wrapped. -/
def wrapped : Buf := { mem := [(0, 0x49), (3, 0x48)], w := 1, r := 3 }

/-- Four slots, three bytes, full (95_test_vectors.md section 2.1, row 7). -/
def full4 : Buf := { mem := [(0, 0x41), (1, 0x42), (2, 0x43)], w := 3, r := 0 }

/-- A state whose instance 1 is running with the given buffers. -/
def withBufs (rxb txb : Buf) : State :=
  match (running []).uart? 1 with
  | some u => (running []).setUart 1 { u with rxb := rxb, txb := txb }
  | none => core

/-! ### Well-formedness: each check refuses an ill-formed operation -/

theorem test_wellFormed_event : (Instr.dispatch 3).wellFormed 3 = false := by decide
theorem test_wellFormed_rxArrive : (Instr.rxArrive 15 0 true).wellFormed 3 = false := by decide
theorem test_wellFormed_txLoad : (Instr.txLoad 3).wellFormed 3 = false := by decide
theorem test_wellFormed_txShiftDone : (Instr.txShiftDone 3).wellFormed 3 = false := by decide
theorem test_wellFormed_buffer : (Instr.bufStore ⟨3, .tx⟩ 0).wellFormed 3 = false := by decide
theorem test_wellFormed_bufClear : (Instr.bufClear ⟨15, .rx⟩).wellFormed 3 = false := by decide
theorem test_wellFormed_command : (Instr.bool 15).wellFormed 3 = true := by decide

/-! ### Words written out from R81, R88 and R90, and the operations they stand for -/

/-- 95_test_vectors.md P5 row 1, section 1.6 step 1, and the host words of sections 2.2 and 2.3. -/
theorem test_decode_commands :
    decode 3 (.cmd 0x000000000A090011) = .op (.setpins 1 9 10) ∧
    decode 3 (.cmd 0x0001C20000000612) = .op (.beginUart 1 0x06 115200) ∧
    decode 3 (.cmd 0x0000000000000013) = .op (.endUart 1) ∧
    decode 3 (.cmd 0x0000000000000014) = .op (.available 1) ∧
    decode 3 (.cmd 0x0000000000000034) = .op (.available 3) ∧
    decode 3 (.cmd 0x0000000000000015) = .op (.peek 1) ∧
    decode 3 (.cmd 0x0000000000000016) = .op (.read 1) ∧
    decode 3 (.cmd 0x0000000000000017) = .op (.flush 1) ∧
    decode 3 (.cmd 0x0000000000000018) = .op (.writecomplete 1) ∧
    decode 3 (.cmd 0x0000000000004819) = .op (.write 1 0x48) ∧
    decode 3 (.cmd 0x000000000000001A) = .op (.attach 1) ∧
    decode 3 (.cmd 0x000000000000001B) = .op (.detach 1) ∧
    decode 3 (.cmd 0x000000000000002C) = .op (.bool 2) := by decide

/-- Section 2.1 (`0x00F9` has ignored bits set). -/
theorem test_decode_buffer :
    decode 3 (.buf ⟨1, .rx⟩ 0x4100) = .op (.bufStore ⟨1, .rx⟩ 0x41) ∧
    decode 3 (.buf ⟨1, .rx⟩ 0x00F9) = .op (.bufRead ⟨1, .rx⟩) ∧
    decode 3 (.buf ⟨0, .tx⟩ 0x0002) = .op (.bufPeek ⟨0, .tx⟩) ∧
    decode 3 (.buf ⟨0, .tx⟩ 0x0003) = .op (.bufAvail ⟨0, .tx⟩) ∧
    decode 3 (.buf ⟨0, .tx⟩ 0x0004) = .op (.bufIsfull ⟨0, .tx⟩) ∧
    decode 3 (.buf ⟨0, .tx⟩ 0x0005) = .op (.bufClear ⟨0, .tx⟩) := by decide

/-- Sections 1.6, 2.2 and 2.5. -/
theorem test_decode_events :
    decode 3 (.evt 0x00000011) = .op (.dispatch 1) ∧
    decode 3 (.evt 0x00003412) = .op (.rxArrive 1 0x34 false) ∧
    decode 3 (.evt 0x00013212) = .op (.rxArrive 1 0x32 true) ∧
    decode 3 (.evt 0x00000013) = .op (.txLoad 1) ∧
    decode 3 (.evt 0x00000014) = .op (.txShiftDone 1) ∧
    decode 3 (.evt 0x000000F5) = .op .tick := by decide

/-- The rejected words of section 2.2. -/
theorem test_decode_reserved :
    decode 3 (.cmd 0x0000000000000000) = .reservedOp ∧
    decode 3 (.cmd 0x000000000000003D) = .reservedOp ∧
    decode 3 (.cmd 0x000000000000000F) = .reservedOp ∧
    decode 3 (.buf ⟨0, .rx⟩ 0x0006) = .reservedBop ∧
    decode 3 (.buf ⟨0, .rx⟩ 0x0007) = .reservedBop ∧
    decode 3 (.evt 0x00000000) = .reservedEvent 0x0 ∧
    decode 3 (.evt 0x00000036) = .reservedEvent 0x6 ∧
    decode 3 (.evt 0x00000031) = .absentInstance 3 := by decide

/-- 1.1: values that the bit reading alone would decode are not accepted. -/
theorem test_mode_rejected :
    modeOk 0x04 = false ∧ modeOk 0x0C = false ∧ modeOk 0x16 = false ∧ modeOk 0x07 = false ∧
    modeOk 0x46 = false ∧ modeOk 0xFF = false ∧ modeOk 0x00 = false := by decide

/-! ### Single steps: host commands -/

/-- 2.3: the requested pins change, the applied ones (the defaults 3 and 4) do not. -/
theorem test_setpins :
    gotUart (exec (.setpins 1 9 10) core) 1 (fun u =>
      (u.ctl.txPin, u.ctl.rxPin, u.per.txPinApplied, u.per.rxPinApplied)) =
      some (9, 10, 3, 4) := by decide

/-- 2.3: `begin 1, 115200, 0x3E`. -/
theorem test_begin :
    gotUart (exec (.beginUart 1 0x3E 115200) (after [.setpins 1 9 10])) 1 (fun u =>
      (u.ctl, u.per.clkEn, u.per.rxIrqEn, u.per.txIrqEn)) =
      some ({ life := .active, txPin := 9, rxPin := 10, baud := 115200, mode := 0x3E,
              cbAttached := false }, true, true, false) ∧
    gotUart (exec (.beginUart 1 0x3E 115200) (after [.setpins 1 9 10])) 1 (fun u =>
      (u.per.wl, u.per.par, u.per.stop, u.per.txPinApplied, u.per.rxPinApplied)) =
      some (.eight, .odd, .two, 9, 10) := by decide

/-- 2.2: instance before mode, mode before baud. -/
theorem test_begin_errors :
    resps (exec (.beginUart 3 0x04 0) core) = some [⟨2, 0⟩] ∧
    resps (exec (.beginUart 0 0x04 0) core) = some [⟨3, 0⟩] ∧
    resps (exec (.beginUart 0 0x06 0) core) = some [⟨4, 0⟩] := by decide

/-- R134 after a byte was queued: everything pending is discarded. -/
theorem test_end :
    gotUart (exec (.endUart 1) (running [.write 1 0x48, .dispatch 1, .write 1 0x49])) 1 (fun u =>
      (u.ctl.life, u.per.clkEn, u.per.txIrqEn, isEmpty u.txb, u.per.txEmpty, u.per.txComplete)) =
      some (.idle, false, false, true, true, true) := by decide

/-- 2.1 row 17: `(1 - 3) mod 4 = 2`. -/
theorem test_available :
    resps (exec (.available 1) { withBufs wrapped Buf.reset with resps := [] }) =
      some [⟨0, 2⟩] := by decide

theorem test_peek :
    resps (exec (.peek 1) { withBufs wrapped Buf.reset with resps := [] }) =
      some [⟨0, 0x48⟩] := by decide

theorem test_peek_empty : resps (exec (.peek 1) core) = some [⟨0, 0xFFFFFFFF⟩] := by decide

/-- 2.1 row 18: the read index wraps from `N - 1` to 0. -/
theorem test_read :
    (resps (exec (.read 1) { withBufs wrapped Buf.reset with resps := [] }),
      gotUart (exec (.read 1) (withBufs wrapped Buf.reset)) 1 fun u => (u.rxb.w, u.rxb.r)) =
      (some [⟨0, 0x48⟩], some (1, 0)) := by decide

/-- 2.3: the byte 0xFF is not -1. -/
theorem test_read_ff :
    resps (exec (.read 1)
      { withBufs { mem := [(0, 0xFF)], w := 1, r := 0 } Buf.reset with resps := [] }) =
      some [⟨0, 0x000000FF⟩] := by decide

theorem test_flush : resps (exec (.flush 1) core) = some [⟨0, 0⟩] := by decide

/-- 2.3: with a byte queued it holds, and no response comes. -/
theorem test_flush_holds :
    got (exec (.flush 1) { running [.write 1 0x48] with resps := [], hostCmds := [0x17] })
      (fun t => (t.resps, t.hostCmds, t.last)) = some ([], [0x17], .notEnabled) := by decide

/-- 2.3: TXB empty and a byte in the shift register. -/
theorem test_writecomplete :
    resps (exec (.writecomplete 1)
      { running [.write 1 0x48, .dispatch 1, .txLoad 1] with resps := [] }) =
      some [⟨0, 0⟩] := by decide

/-- 1.5: discarded in the guard window, and `tx_irq_en` stays 0. -/
theorem test_write_guarded :
    (resps (exec (.write 0 0x41) { after [.beginUart 0 0x06 9600, .tick, .tick] with resps := [] }),
      gotUart (exec (.write 0 0x41) (after [.beginUart 0 0x06 9600, .tick, .tick])) 0 fun u =>
        (u.per.txIrqEn, u.txb.w)) = (some [⟨0, 0⟩], some (false, 0)) := by decide

/-- 2.3: into a full buffer the byte is dropped, and `tx_irq_en` is set all the same. -/
theorem test_write_full :
    (resps (exec (.write 1 0xFF) { withBufs Buf.reset full4 with resps := [] }),
      gotUart (exec (.write 1 0xFF) (withBufs Buf.reset full4)) 1 fun u =>
        (u.per.txIrqEn, u.txb)) = (some [⟨0, 0⟩], some (true, full4)) := by decide

theorem test_attach :
    gotUart (exec (.attach 1) core) 1 (fun u => (u.ctl.cbAttached, u.per.rxIrqEn)) =
      some (true, false) := by decide

theorem test_detach :
    gotUart (exec (.detach 1) (running [.attach 1])) 1 (fun u =>
      (u.ctl.cbAttached, u.per.rxIrqEn)) = some (false, true) := by decide

theorem test_bool : resps (exec (.bool 2) core) = some [⟨0, 1⟩] := by decide

/-! ### Single steps: the buffer port (section 2.1) -/

/-- Row 13: the write index wraps from `N - 1` to 0. -/
theorem test_bufStore :
    gotUart (exec (.bufStore ⟨1, .rx⟩ 0x45) (withBufs { full4 with r := 1 } Buf.reset)) 1
      (fun u => u.rxb) =
      some { mem := [(0, 0x41), (1, 0x42), (2, 0x43), (3, 0x45)], w := 0, r := 1 } := by decide

/-- Row 10: dropped when full. -/
theorem test_bufStore_full :
    (bufResps (exec (.bufStore ⟨1, .tx⟩ 0x44) (withBufs Buf.reset full4)),
      gotUart (exec (.bufStore ⟨1, .tx⟩ 0x44) (withBufs Buf.reset full4)) 1 fun u => u.txb) =
      (some [0], some full4) := by decide

/-- Row 12. -/
theorem test_bufRead :
    (bufResps (exec (.bufRead ⟨1, .tx⟩) (withBufs Buf.reset full4)),
      gotUart (exec (.bufRead ⟨1, .tx⟩) (withBufs Buf.reset full4)) 1 fun u => u.txb) =
      (some [0x141], some { full4 with r := 1 }) := by decide

/-- Row 11. -/
theorem test_bufPeek :
    bufResps (exec (.bufPeek ⟨1, .tx⟩) (withBufs Buf.reset full4)) = some [0x141] := by decide

/-- Row 17. -/
theorem test_bufAvail :
    bufResps (exec (.bufAvail ⟨1, .rx⟩) (withBufs wrapped Buf.reset)) = some [2] := by decide

/-- Row 8. -/
theorem test_bufIsfull :
    bufResps (exec (.bufIsfull ⟨1, .tx⟩) (withBufs Buf.reset full4)) = some [1] := by decide

/-- Row 23: both indices 0, the storage stays. -/
theorem test_bufClear :
    gotUart (exec (.bufClear ⟨1, .rx⟩) (withBufs wrapped Buf.reset)) 1 (fun u => u.rxb) =
      some { wrapped with w := 0, r := 0 } := by decide

/-! ### Single steps: events -/

/-- R174's example: both events serviced in one entry. -/
theorem test_dispatch_both :
    gotUart (exec (.dispatch 1) (running [.write 1 0x48, .rxArrive 1 0x49 false])) 1 (fun u =>
      (u.rxb, u.per.rxReady, u.per.txData, u.per.txEmpty, u.per.txIrqEn, isEmpty u.txb)) =
      some ({ mem := [(0, 0x49)], w := 1, r := 0 }, false, 0x48, false, false, true) := by decide

/-- 2.4: with a callback the byte goes to `CBLOG` and `RXB` stays. -/
theorem test_dispatch_callback :
    got (exec (.dispatch 1) (running [.attach 1, .rxArrive 1 0x62 false])) (fun t =>
      (t.cblog, (t.uart? 1).map fun u => u.rxb.w)) = some ([(1, 0x62)], some 0) := by decide

/-- P6 row 4: `KEEP = 1` keeps the unread byte. -/
theorem test_rxArrive_keep :
    gotUart (exec (.rxArrive 1 0x32 true) (running [.rxArrive 1 0x31 false])) 1 (fun u =>
      (u.per.rxData, u.per.rxReady)) = some (0x31, true) := by decide

/-- P6 row 7: `KEEP = 0` replaces it. -/
theorem test_rxArrive_replace :
    gotUart (exec (.rxArrive 1 0x34 false) (running [.rxArrive 1 0x33 false])) 1 (fun u =>
      (u.per.rxData, u.per.rxReady)) = some (0x34, true) := by decide

/-- R192's example. -/
theorem test_txLoad :
    gotUart (exec (.txLoad 1) (running [.write 1 0x48, .dispatch 1])) 1 (fun u =>
      (u.per.shData, u.per.shBusy, u.per.txEmpty, u.per.txComplete)) =
      some (0x48, true, true, false) := by decide

/-- R193's example. -/
theorem test_txShiftDone :
    gotUart (exec (.txShiftDone 1) (running [.write 1 0x48, .dispatch 1, .txLoad 1])) 1 (fun u =>
      (u.wire, u.per.shBusy, u.per.txComplete)) = some ([0x48], false, true) := by decide

/-- 2.5: with a next byte waiting, transmission is not complete. -/
theorem test_txShiftDone_waiting :
    gotUart (exec (.txShiftDone 1)
      (running [.write 1 0x48, .write 1 0x49, .dispatch 1, .txLoad 1, .dispatch 1])) 1 (fun u =>
      (u.wire, u.per.shBusy, u.per.txComplete)) = some ([0x48], false, false) := by decide

/-- 2.6: the counter saturates at `GUARD_TICKS = 3`; an instance without a guard never counts. -/
theorem test_tick_saturates :
    got (exec .tick (after [.tick, .tick, .tick])) (fun t => t.uarts.map fun u => u.grdCnt) =
      some [3, 0, 0] := by decide

/-! ### Single steps: the ports -/

/-- `bool 2` through the host port of the reset core, as the host asks of a table word. -/
theorem test_step_host :
    resps (step (State.reset.withFetchWord 64 0x2C)) = some [⟨0, 1⟩] := by decide

/-- A reserved command is answered; a reserved event is refused. -/
theorem test_step_reserved :
    resps (step (offered .host 0x3D)) = some [⟨1, 0⟩] ∧
    step (offered (.event 0x36) 0) = .refused (.reservedEvent 6) := by
  refine ⟨by decide, rfl⟩

/-- Vector 12 is instance 2's; at reset its `DISPATCH` is not enabled, and vector 13 is no one's. -/
theorem test_step_vector :
    got (step (offered (.vector 12) 0)) (fun t => t.last) = some .notEnabled ∧
    step (offered (.vector 13) 0) = .refused (.unmappedVector 13) := by
  refine ⟨by decide, rfl⟩

/-- The bench reads `RXB[1]` of the reset core: empty. -/
theorem test_step_bench :
    bufResps (step (offered (.bench ⟨1, .rx⟩ 0x0001) 0)) = some [0] := by decide

/-! ### Witnesses: for each statement with hypotheses, operands and states that meet them all -/

/-- The highest instance of this core, and an operation of each port on it. -/
theorem witness_DecodeEncodeRoundTrip :
    (Instr.dispatch 2).wellFormed 3 = true ∧ (Instr.bufClear ⟨2, .tx⟩).wellFormed 3 = true ∧
    (Instr.bool 15).wellFormed 3 = true ∧ Instr.tick.wellFormed 3 = true := by decide

/-- One word for each clause; the event clauses on instance 2, the last one, and 3, the first absent
one. -/
theorem witness_DecodingFollowsTheTables :
    (0x0D#64).extractLsb' 0 4 ∈ [0x0#4, 0xD#4, 0xE#4, 0xF#4] ∧
    (∀ op : BitVec 4, ((0#60 ++ op).extractLsb' 0 4) = op) ∧
    (∀ bop : BitVec 3, ((0#13 ++ bop).extractLsb' 0 3) = bop) ∧
    (0x7#16).extractLsb' 0 3 ∈ [6#3, 7#3] ∧
    (0x26#32).extractLsb' 0 4 ∉ [0x1#4, 0x2#4, 0x3#4, 0x4#4, 0x5#4] ∧
    (0xF5#32).extractLsb' 0 4 = 0x5#4 ∧
    ((0x31#32).extractLsb' 0 4 ∈ [0x1#4, 0x2#4, 0x3#4, 0x4#4] ∧
      3 ≤ ((0x31#32).extractLsb' 4 4).toNat) ∧
    (∀ ec ∈ [0x1#4, 0x2#4, 0x3#4, 0x4#4], (0x2#28 ++ ec).extractLsb' 0 4 = ec ∧
      ((0x2#28 ++ ec).extractLsb' 4 4).toNat < 3) := by decide

/-- `bool 0` with every unused bit set and clear, and `begin` with other pins. -/
theorem witness_UnusedCommandFieldsIgnored :
    ((0xFFFFFFFFFFFFFF0C#64).extractLsb' 0 4 = (0x0C#64).extractLsb' 0 4 ∧
      (0xFFFFFFFFFFFFFF0C#64).extractLsb' 4 4 = (0x0C#64).extractLsb' 4 4 ∧
      (0x0C#64).extractLsb' 0 4 ∉ [0x1#4, 0x2#4, 0x9#4]) ∧
    ((0x00002580FFFF0612#64).extractLsb' 0 4 = 0x2#4 ∧
      (0x0000258000000612#64).extractLsb' 0 4 = 0x2#4 ∧
      (0x00002580FFFF0612#64).extractLsb' 4 4 = (0x0000258000000612#64).extractLsb' 4 4 ∧
      (0x00002580FFFF0612#64).extractLsb' 8 8 = (0x0000258000000612#64).extractLsb' 8 8 ∧
      (0x00002580FFFF0612#64).extractLsb' 32 32 = (0x0000258000000612#64).extractLsb' 32 32) ∧
    ((0xFFFFFFFF0A09FF11#64).extractLsb' 0 4 = 0x1#4 ∧
      (0xFFFFFFFF0A09FF11#64).extractLsb' 16 8 = (0x000000000A090011#64).extractLsb' 16 8 ∧
      (0xFFFFFFFF0A09FF11#64).extractLsb' 24 8 = (0x000000000A090011#64).extractLsb' 24 8) := by
  decide

/-- Bytes outside the table, one below, one inside its range and one above. -/
theorem witness_ModeByteTable :
    ∀ m ∈ [0x05#8, 0x16#8, 0x3F#8],
      m ∉ [0x06#8, 0x0E#8, 0x24#8, 0x26#8, 0x2C#8, 0x2E#8, 0x34#8, 0x36#8, 0x3C#8, 0x3E#8] := by
  decide

/-- A turn of each kind. -/
theorem witness_StepRunsDecodedOperation :
    ((offered .host 0x2C).turns = .host :: [] ∧ (offered .host 0x2C).hostCmds = 0x2C :: [] ∧
      decode (offered .host 0x2C).numUart (.cmd 0x2C) = .op (.bool 2)) ∧
    ((offered (.event 0x21) 0).turns = .event 0x21 :: [] ∧
      decode (offered (.event 0x21) 0).numUart (.evt 0x21) = .op (.dispatch 2)) ∧
    ((offered (.bench ⟨2, .tx⟩ 5) 0).turns = .bench ⟨2, .tx⟩ 5 :: [] ∧
      decode (offered (.bench ⟨2, .tx⟩ 5) 0).numUart (.buf ⟨2, .tx⟩ 5) =
        .op (.bufClear ⟨2, .tx⟩)) ∧
    ((offered (.vector 12) 0).turns = .vector 12 :: [] ∧
      route (offered (.vector 12) 0) 12 = some 2) := by decide

theorem witness_ReservedCodesAnswered :
    ((offered .host 0xFF).turns = .host :: [] ∧ (offered .host 0xFF).hostCmds = 0xFF :: [] ∧
      (0xFF#64).extractLsb' 0 4 ∈ [0x0#4, 0xD#4, 0xE#4, 0xF#4]) ∧
    ((offered (.bench ⟨2, .tx⟩ 6) 0).turns = .bench ⟨2, .tx⟩ 6 :: [] ∧
      (6#16).extractLsb' 0 3 ∈ [6#3, 7#3]) := by decide

/-- A reserved code on an absent instance, which falls under the first clause alone, and the first
absent instance. -/
theorem witness_ReservedEventRefused :
    ((offered (.event 0x36) 0).turns = .event 0x36 :: [] ∧
      (0x36#32).extractLsb' 0 4 ∉ [0x1#4, 0x2#4, 0x3#4, 0x4#4, 0x5#4]) ∧
    ((offered (.event 0x34) 0).turns = .event 0x34 :: [] ∧
      (0x34#32).extractLsb' 0 4 ∈ [0x1#4, 0x2#4, 0x3#4, 0x4#4] ∧
      (offered (.event 0x34) 0).numUart ≤ ((0x34#32).extractLsb' 4 4).toNat) := by decide

theorem witness_RouterInvertsVectorIdentities :
    ((offered (.vector 12) 0).paramsWf ∧ (offered (.vector 12) 0).turns = .vector 12 :: [] ∧
      ∃ u, (offered (.vector 12) 0).uart? 2 = some u ∧ u.desc.vecId = 12) ∧
    ((offered (.vector 13) 0).paramsWf ∧ (offered (.vector 13) 0).turns = .vector 13 :: [] ∧
      ∀ u ∈ (offered (.vector 13) 0).uarts, u.desc.vecId ≠ 13) := by
  refine ⟨⟨by decide, rfl, _, rfl, rfl⟩, by decide, rfl, by decide⟩

theorem witness_AbsentInstanceAnswered :
    ((Instr.flush 3).port = .host ∧ (Instr.flush 3).inst? = some 3 ∧
      core.numUart ≤ (3 : Inst).toNat) ∧
    ((offered .host 0x37).turns = .host :: [] ∧ (offered .host 0x37).hostCmds = 0x37 :: [] ∧
      (offered .host 0x37).numUart ≤ ((0x37#64).extractLsb' 4 4).toNat) := by decide

theorem witness_ErrorResponseChangesNothing :
    ∃ t r, (Instr.write 1 0x48).port = .host ∧ exec (.write 1 0x48) core = .next t ∧
      t.resps = core.resps ++ [r] ∧ r.ecode ≠ 0 :=
  ⟨_, ⟨5, 0⟩, rfl, rfl, rfl, by decide⟩

theorem witness_EveryCommandAnsweredOnce : (Instr.flush 15).port = .host := rfl

/-- The shape `s.uart? j = some u`, met by the last instance of the reset core: the statements on
`SETPINS`, `END`, `PEEK`, `READ`, `WRITECOMPLETE`, `BOOL`, `ATTACH`, `DETACH` and the buffer
operations need no more. -/
theorem witness_present : ∃ u, core.uart? 2 = some u := ⟨_, rfl⟩

theorem witness_SetpinsStoresRequestedPins : ∃ u, core.uart? 2 = some u := witness_present
theorem witness_EndDeactivates : ∃ u, core.uart? 2 = some u := witness_present
theorem witness_PeekAnswersOldestByte : ∃ u, core.uart? 2 = some u := witness_present
theorem witness_WritecompleteForeseesFlush : ∃ u, core.uart? 2 = some u := witness_present
theorem witness_BoolAttachAndDetach : ∃ u, core.uart? 2 = some u := witness_present
theorem witness_BufClearResetsIndices : ∃ u, core.uart? 2 = some u := witness_present

/-- The lowest nonzero baud rate. -/
theorem witness_BeginConfiguresAndActivates :
    ∃ u f, core.uart? 2 = some u ∧ decodeMode 0x3E = some f ∧ (1 : BitVec 32) ≠ 0 :=
  ⟨_, ⟨.eight, .odd, .two⟩, rfl, by decide, by decide⟩

theorem witness_BeginChecksModeThenBaud :
    ∃ u, core.uart? 2 = some u ∧ modeOk 0x04 = false ∧ modeOk 0x06 = true ∧ (0 : BitVec 32) = 0 :=
  ⟨_, rfl, by decide, by decide, rfl⟩

/-- A buffer whose write index has wrapped. -/
theorem witness_AvailableAnswersReceivedCount :
    (withBufs wrapped Buf.reset).wf ∧ ∃ u, (withBufs wrapped Buf.reset).uart? 1 = some u ∧
      u.rxb = wrapped := by
  refine ⟨by decide, _, rfl, rfl⟩

theorem witness_ReadRemovesOldestByte :
    (∃ u, core.uart? 1 = some u ∧ u.rxb.w = u.rxb.r) ∧
    (∃ u, (withBufs wrapped Buf.reset).uart? 1 = some u ∧ u.rxb.w ≠ u.rxb.r) :=
  ⟨⟨_, rfl, rfl⟩, _, rfl, by decide⟩

theorem witness_FlushAnsweredWhenTransmitterIdle :
    ∃ u, core.uart? 1 = some u ∧ u.txb.w = u.txb.r ∧ u.per.txComplete = true := ⟨_, rfl, rfl, rfl⟩

/-- Either half of the condition alone. -/
theorem witness_FlushHoldsWhileTransmitterBusy :
    (∃ u, (running [.write 1 0x48]).uart? 1 = some u ∧ u.txb.w ≠ u.txb.r ∧
      u.per.txComplete = true) ∧
    (∃ u, (running [.write 1 0x48, .dispatch 1]).uart? 1 = some u ∧ u.txb.w = u.txb.r ∧
      u.per.txComplete = false) :=
  ⟨⟨_, rfl, by decide, by decide⟩, _, rfl, by decide, by decide⟩

/-- Each clause: not active; in the window with one tick to go; out of it at exactly `GUARD_TICKS`;
without a guard; and a full buffer. -/
theorem witness_WriteQueuesOneByte :
    (∃ u, core.uart? 1 = some u ∧ u.ctl.life ≠ .active) ∧
    (∃ u, (after [.beginUart 0 0x06 9600, .tick, .tick]).uart? 0 = some u ∧
      u.ctl.life = .active ∧ u.desc.bootGuardEn = true ∧
      u.grdCnt < (after [.beginUart 0 0x06 9600, .tick, .tick]).params.guardTicks) ∧
    (∃ u, (after [.beginUart 0 0x06 9600, .tick, .tick, .tick]).uart? 0 = some u ∧
      u.ctl.life = .active ∧ u.desc.bootGuardEn = true ∧ 3 ≤ u.grdCnt ∧
      (u.txb.w + 1) % 4 ≠ u.txb.r) ∧
    (∃ u, (withBufs Buf.reset full4).uart? 1 = some u ∧ u.ctl.life = .active ∧
      u.desc.bootGuardEn = false ∧
      (u.txb.w + 1) % slots (withBufs Buf.reset full4).params = u.txb.r) :=
  ⟨⟨_, rfl, by decide⟩, ⟨_, rfl, by decide, by decide, by decide⟩,
    ⟨_, rfl, by decide, by decide, by decide, by decide⟩, _, rfl, by decide, by decide, by decide⟩

/-- An accepted `BEGIN`, an `END`, and an operation that is neither. -/
theorem witness_LifecycleTable :
    (∃ t u u', exec (.beginUart 1 0x06 9600) core = .next t ∧ core.uart? 1 = some u ∧
      t.uart? 1 = some u') ∧
    (∃ t u u', exec (.endUart 1) core = .next t ∧ core.uart? 1 = some u ∧ t.uart? 1 = some u') ∧
    (∃ t u u', exec .tick core = .next t ∧ core.uart? 1 = some u ∧ t.uart? 1 = some u') :=
  ⟨⟨_, _, _, rfl, rfl, rfl⟩, ⟨_, _, _, rfl, rfl, rfl⟩, _, _, _, rfl, rfl, rfl⟩

/-- Room at the last slot, and a full buffer. -/
theorem witness_BufStoreAppendsOrDrops :
    (∃ u, (withBufs { full4 with r := 1 } full4).uart? 1 = some u ∧
      (u.rxb.w + 1) % 4 ≠ u.rxb.r ∧ (u.txb.w + 1) % 4 = u.txb.r) := ⟨_, rfl, by decide, by decide⟩

theorem witness_BufReadRemovesOldest :
    (∃ u, (withBufs wrapped Buf.reset).uart? 1 = some u ∧ u.rxb.w ≠ u.rxb.r ∧
      u.txb.w = u.txb.r) := ⟨_, rfl, by decide, by decide⟩

theorem witness_BufPeekAnswersOldest :
    (∃ u, (withBufs wrapped Buf.reset).uart? 1 = some u ∧ u.rxb.w ≠ u.rxb.r ∧
      u.txb.w = u.txb.r) := witness_BufReadRemovesOldest

theorem witness_BufAvailAndIsfullReport :
    (withBufs wrapped full4).wf ∧ ∃ u, (withBufs wrapped full4).uart? 1 = some u :=
  ⟨by decide, _, rfl⟩

/-- The smallest index width with its largest index, and the narrowest width of the difference. -/
theorem witness_IndexArithmeticIsMasking :
    1 ≤ 1 ∧ 1 < 2 ^ 1 ∧ (0 : Nat) < 2 ^ 1 ∧ 1 + 1 ≤ 2 := by decide

/-- The smallest buffer, and one whose indices do not stand at 0. -/
theorem witness_BufferHoldsAtMostNMinusOne :
    (2 ≤ 2 ∧ bufWf 2 Buf.reset ∧ isEmpty Buf.reset = true ∧ [0x41#8].length = 2 - 1) ∧
    (2 ≤ 4 ∧ bufWf 4 { wrapped with r := 1 } ∧ isEmpty { wrapped with r := 1 } = true ∧
      [0x41#8, 0x42#8, 0x43#8].length = 4 - 1) ∧ bufWf 4 full4 := by decide

theorem witness_BufferIsFirstInFirstOut :
    2 ≤ 4 ∧ bufWf 4 { wrapped with r := 1 } ∧ isEmpty { wrapped with r := 1 } = true := by decide

theorem witness_AbsentBufferFaults :
    (Instr.bufIsfull ⟨3, .rx⟩).port = .buffer ∧ (Instr.bufIsfull ⟨3, .rx⟩).inst? = some 3 ∧
      core.numUart ≤ (3 : Inst).toNat := by decide

/-- With a callback; in buffered mode with room; and in buffered mode with a full buffer. -/
theorem witness_DispatchReceives :
    (∃ u, (running [.attach 1, .rxArrive 1 0x62 false]).uart? 1 = some u ∧ u.per.clkEn = true ∧
      u.per.rxReady = true ∧ u.per.rxIrqEn = true ∧ u.ctl.cbAttached = true) ∧
    (∃ u, (running [.rxArrive 1 0x62 false]).uart? 1 = some u ∧ u.per.clkEn = true ∧
      u.per.rxReady = true ∧ u.per.rxIrqEn = true ∧ u.ctl.cbAttached = false ∧
      (u.rxb.w + 1) % 4 ≠ u.rxb.r) ∧
    (∃ u, (running [.bufStore ⟨1, .rx⟩ 1, .bufStore ⟨1, .rx⟩ 2, .bufStore ⟨1, .rx⟩ 3,
        .rxArrive 1 0x51 false]).uart? 1 = some u ∧ u.per.clkEn = true ∧ u.per.rxReady = true ∧
      u.per.rxIrqEn = true ∧ u.ctl.cbAttached = false ∧ (u.rxb.w + 1) % 4 = u.rxb.r) :=
  ⟨⟨_, rfl, by decide, by decide, by decide, by decide⟩,
    ⟨_, rfl, by decide, by decide, by decide, by decide, by decide⟩,
    _, rfl, by decide, by decide, by decide, by decide, by decide⟩

/-- One byte queued, and none queued (a write drained by the bench). -/
theorem witness_DispatchTransmits :
    (∃ u, (running [.write 1 0x48]).uart? 1 = some u ∧ u.per.clkEn = true ∧
      u.per.txEmpty = true ∧ u.per.txIrqEn = true ∧ u.txb.w ≠ u.txb.r) ∧
    (∃ u, (running [.write 1 0x48, .bufRead ⟨1, .tx⟩]).uart? 1 = some u ∧ u.per.clkEn = true ∧
      u.per.txEmpty = true ∧ u.per.txIrqEn = true ∧ u.txb.w = u.txb.r) :=
  ⟨⟨_, rfl, by decide, by decide, by decide, by decide⟩,
    _, rfl, by decide, by decide, by decide, by decide⟩

/-- A transmit event alone; a receive event alone, with an address beside the one stored to; and a
receive event with a callback. -/
theorem witness_DispatchFrame :
    (∃ u, (running [.write 1 0x48]).uart? 1 = some u ∧ irq u = true ∧ rxEv u = false) ∧
    (∃ u, (running [.rxArrive 1 0x62 false]).uart? 1 = some u ∧ irq u = true ∧ txEv u = false ∧
      storeAddress (.dispatch 1) (running [.rxArrive 1 0x62 false]) = some (⟨1, .rx⟩, 0) ∧
      storeAddress (.dispatch 1) (running [.rxArrive 1 0x62 false]) ≠ some (⟨1, .rx⟩, 1)) ∧
    (∃ u, (running [.attach 1, .rxArrive 1 0x62 false]).uart? 1 = some u ∧ irq u = true ∧
      u.ctl.cbAttached = true) :=
  ⟨⟨_, rfl, by decide, by decide⟩, ⟨_, rfl, by decide, by decide, by decide, by decide⟩,
    _, rfl, by decide, by decide⟩

theorem witness_DispatchLeavesNoRequest :
    ∃ u, (running [.write 1 0x48, .rxArrive 1 0x49 false]).uart? 1 = some u ∧ irq u = true :=
  ⟨_, rfl, by decide⟩

theorem witness_RxArriveFillsRegister :
    ∃ u, (running []).uart? 1 = some u ∧ u.per.clkEn = true := ⟨_, rfl, by decide⟩

theorem witness_TxLoadMovesByteToShiftRegister :
    ∃ u, (running [.write 1 0x48, .dispatch 1]).uart? 1 = some u ∧ u.per.clkEn = true ∧
      u.per.txEmpty = false ∧ u.per.shBusy = false := ⟨_, rfl, by decide, by decide, by decide⟩

theorem witness_TxShiftDonePutsByteOnWire :
    ∃ u, (running [.write 1 0x48, .dispatch 1, .txLoad 1]).uart? 1 = some u ∧
      u.per.clkEn = true ∧ u.per.shBusy = true := ⟨_, rfl, by decide, by decide⟩

/-- The last instance of the core, and a counter one below `GUARD_TICKS`. -/
theorem witness_TickAdvancesGuardCounters :
    (∃ u, core.uarts[2]? = some u) ∧
    (∃ u, (after [.tick, .tick]).uarts[0]? = some u ∧ u.desc.bootGuardEn = true ∧ u.grdCnt < 3) :=
  ⟨⟨_, rfl⟩, _, rfl, by decide, by decide⟩

/-- Each event where it is not enabled, and with the clock on where that can be. -/
theorem witness_DisabledEventChangesNothing :
    (∃ u, core.uart? 1 = some u ∧ u.per.clkEn = false) ∧
    (∃ u, (running []).uart? 1 = some u ∧ u.per.clkEn = true ∧ u.per.rxReady = false ∧
      u.per.txIrqEn = false ∧ u.per.txEmpty = true ∧ u.per.shBusy = false) ∧
    (∃ u, (running [.write 1 1, .write 1 2, .dispatch 1, .txLoad 1, .dispatch 1]).uart? 1 = some u ∧
      u.per.txEmpty = false ∧ u.per.shBusy = true) :=
  ⟨⟨_, rfl, by decide⟩, ⟨_, rfl, by decide, by decide, by decide, by decide, by decide⟩,
    _, rfl, by decide, by decide⟩

/-- Both sides of the boundary: `GUARD_TICKS - 1` and `GUARD_TICKS` ticks after a `BEGIN`. -/
theorem witness_GuardWindowLastsGuardTicks :
    core.wf ∧ ∀ k ∈ [2, 3], ∃ t t' u f, core.uart? 0 = some u ∧ u.desc.bootGuardEn = true ∧
      decodeMode 0x06 = some f ∧ (9600 : BitVec 32) ≠ 0 ∧
      exec (.beginUart 0 0x06 9600) core = .next t ∧ repeatExec .tick k t = .next t' := by
  refine ⟨by decide, ?_⟩
  intro k hk
  have h : k = 2 ∨ k = 3 := by simpa using hk
  obtain rfl | rfl := h <;>
    exact ⟨_, _, _, ⟨.eight, .none, .one⟩, rfl, rfl, by decide, by decide, rfl, rfl⟩

/-- A store, at an address beside the one stored to. -/
theorem witness_OnlyStoresWriteStorage :
    ∃ t, exec (.write 1 0x48) (running []) = .next t ∧
      storeAddress (.write 1 0x48) (running []) ≠ some (⟨1, .tx⟩, 1) ∧
      storeAddress (.write 1 0x48) (running []) = some (⟨1, .tx⟩, 0) :=
  ⟨_, rfl, by decide, by decide⟩

/-- Each clause: a host command, a `DISPATCH`, and another event. -/
theorem witness_IndicesHaveOneOwner :
    (∃ t u u', exec (.write 1 0x48) (running []) = .next t ∧ (running []).uart? 1 = some u ∧
      t.uart? 1 = some u' ∧ (Instr.write 1 0x48).port = .host ∧
      (∀ m baud, Instr.write 1 0x48 ≠ .beginUart 1 m baud) ∧ Instr.write 1 0x48 ≠ .endUart 1) ∧
    (∃ t u u', exec (.dispatch 1) (running [.write 1 0x48]) = .next t ∧
      (running [.write 1 0x48]).uart? 1 = some u ∧ t.uart? 1 = some u') ∧
    (∃ t u u', exec (.rxArrive 1 0x62 true) (running []) = .next t ∧
      (running []).uart? 1 = some u ∧ t.uart? 1 = some u' ∧
      (Instr.rxArrive 1 0x62 true).port = .event ∧ Instr.rxArrive 1 0x62 true ≠ .dispatch 1) :=
  ⟨⟨_, _, _, rfl, rfl, rfl, rfl, by simp, by decide⟩, ⟨_, _, _, rfl, rfl, rfl⟩,
    _, _, _, rfl, rfl, rfl, rfl, by decide⟩

/-- A `DISPATCH` that delivers, with two other instances beside it. -/
theorem witness_OperationsStayOnTheirInstance :
    ∃ t, exec (.dispatch 1) (running [.attach 1, .rxArrive 1 0x62 false]) = .next t ∧
      (Instr.dispatch 1).inst? = some 1 ∧ (2 : Nat) ≠ (1 : Inst).toNat := ⟨_, rfl, rfl, by decide⟩

/-- A `WRITE` in two states that differ in instance 0 and in the responses, and a `DISPATCH` that
delivers to `CBLOG` in two states that differ in instance 0. -/
theorem witness_OtherInstancesAreInvisible :
    (∃ t, (Instr.write 1 0x48).inst? = some 1 ∧
      (running []).params = (running [.setpins 0 9 9]).params ∧
      (running []).uart? 1 = (running [.setpins 0 9 9]).uart? 1 ∧
      exec (.write 1 0x48) (running []) = .next t ∧
      (running []).resps ≠ (running [.setpins 0 9 9]).resps) ∧
    (∃ t, (Instr.dispatch 1).inst? = some 1 ∧
      (running [.attach 1, .rxArrive 1 0x62 false]).params =
        (running [.attach 1, .rxArrive 1 0x62 false, .attach 0]).params ∧
      (running [.attach 1, .rxArrive 1 0x62 false]).uart? 1 =
        (running [.attach 1, .rxArrive 1 0x62 false, .attach 0]).uart? 1 ∧
      exec (.dispatch 1) (running [.attach 1, .rxArrive 1 0x62 false]) = .next t ∧
      t.cblog = [(1, 0x62)]) :=
  ⟨⟨_, rfl, rfl, rfl, rfl, by decide⟩, _, rfl, rfl, rfl, rfl, rfl⟩

theorem witness_NoStepChangesParameter :
    ∃ t, step (offered .host 0x0001C20000000612) = .next t := ⟨_, rfl⟩

/-- Each clause: an operation that is no `TX_SHIFT_DONE`; one that is no `DISPATCH`; and a `DISPATCH`
without a callback. -/
theorem witness_LogsHaveOneWriter :
    ∃ t u u', exec (.dispatch 1) (running [.rxArrive 1 0x62 false]) = .next t ∧
      (running [.rxArrive 1 0x62 false]).uart? 1 = some u ∧ t.uart? 1 = some u' ∧
      u.ctl.cbAttached = false ∧ Instr.dispatch 1 ≠ .txShiftDone 1 ∧
      ∀ k, Instr.txShiftDone 1 ≠ .dispatch k :=
  ⟨_, _, _, rfl, rfl, rfl, by decide, by decide, by simp⟩

/-- A running core whose next turn is a dispatcher's, with a byte to send and one received. -/
def busy : State :=
  { running [.write 1 0x48, .rxArrive 1 0x49 false] with turns := [.event 0x00000011] }

theorem witness_StepKeepsStateWellFormed : busy.wf ∧ ∃ t, step busy = .next t :=
  ⟨by decide, _, rfl⟩

theorem witness_AgentStepsKeepInvariants :
    busy.inv ∧ busy.turns = .event 0x00000011 :: [] ∧
      (Turn.event 0x00000011).ofAgent = true ∧ ∃ t, step busy = .next t :=
  ⟨by decide, rfl, rfl, _, rfl⟩

theorem witness_AgentStepsKeepTransmitInvariants :
    busy.txInv ∧ busy.turns = .event 0x00000011 :: [] ∧
      (Turn.event 0x00000011).ofAgent = true ∧ ∃ t, step busy = .next t :=
  ⟨⟨by decide, by decide⟩, rfl, rfl, _, rfl⟩

theorem witness_ResetValues :
    ([dev 0 true, dev 1 false, dev 2 false] : List Descriptor)[2]? = some (dev 2 false) := by decide

/-- A core of one instance with the smallest parameters, and this file's core of three. -/
theorem witness_ResetMeetsInvariants :
    ((⟨1, 1, 1000, 0⟩ : Params).wf ∧ 1 ≤ [dev 0 true].length ∧ [dev 0 true].length ≤ 16 ∧
      (∀ d ∈ [dev 0 true], d.defaultTxPin ≠ d.defaultRxPin) ∧
      ([dev 0 true].map fun d => d.vecId).Nodup) ∧
    (core.params.wf ∧ 1 ≤ [dev 0 true, dev 1 false, dev 2 false].length ∧
      [dev 0 true, dev 1 false, dev 2 false].length ≤ 16 ∧
      (∀ d ∈ [dev 0 true, dev 1 false, dev 2 false], d.defaultTxPin ≠ d.defaultRxPin) ∧
      ([dev 0 true, dev 1 false, dev 2 false].map fun d => d.vecId).Nodup) := by
  refine ⟨⟨by decide, by decide, by decide, by decide, by decide⟩,
    by decide, by decide, by decide, by decide, by decide⟩

/-- An operation that keeps the bytes, an accepted `WRITE`, and an `END`. -/
theorem witness_TransmitOrderIsWriteOrder :
    (running [.write 1 0x48]).wf ∧
    ∀ i ∈ [Instr.dispatch 1, .write 1 0x49, .endUart 1], i.port ≠ .buffer ∧
      ∃ t u u', exec i (running [.write 1 0x48]) = .next t ∧
        (running [.write 1 0x48]).uart? 1 = some u ∧ t.uart? 1 = some u' := by
  refine ⟨by decide, ?_⟩
  intro i hi
  have h : i = .dispatch 1 ∨ i = .write 1 0x49 ∨ i = .endUart 1 := by simpa using hi
  obtain rfl | rfl | rfl := h <;> exact ⟨by decide, _, _, _, rfl, rfl, rfl⟩

/-- A `READ` and a `DISPATCH` of a received byte. -/
theorem witness_ReceiveOrderIsArrivalOrder :
    (running [.rxArrive 1 1 false, .dispatch 1, .rxArrive 1 2 false]).wf ∧
    ∀ i ∈ [Instr.read 1, .dispatch 1], i.port ≠ .buffer ∧
      ∃ t u u', exec i (running [.rxArrive 1 1 false, .dispatch 1, .rxArrive 1 2 false]) = .next t ∧
        (running [.rxArrive 1 1 false, .dispatch 1, .rxArrive 1 2 false]).uart? 1 = some u ∧
        t.uart? 1 = some u' := by
  refine ⟨by decide, ?_⟩
  intro i hi
  have h : i = .read 1 ∨ i = .dispatch 1 := by simpa using hi
  obtain rfl | rfl := h <;> exact ⟨by decide, _, _, _, rfl, rfl, rfl⟩

/-- A taken `TX_LOAD`, a taken `TX_SHIFT_DONE` and a `DISPATCH` that moves a byte. -/
theorem witness_TransmitWorkOnlyFalls :
    (∃ t u u', (running [.write 1 1, .dispatch 1]).wf ∧
      exec (.txLoad 1) (running [.write 1 1, .dispatch 1]) = .next t ∧
      (running [.write 1 1, .dispatch 1]).uart? 1 = some u ∧ t.uart? 1 = some u' ∧
      t.last = .taken) ∧
    (∃ t u u', (running [.write 1 1, .dispatch 1, .txLoad 1]).wf ∧
      exec (.txShiftDone 1) (running [.write 1 1, .dispatch 1, .txLoad 1]) = .next t ∧
      (running [.write 1 1, .dispatch 1, .txLoad 1]).uart? 1 = some u ∧ t.uart? 1 = some u' ∧
      t.last = .taken) ∧
    (∃ t u u', (running [.write 1 1]).wf ∧ exec (.dispatch 1) (running [.write 1 1]) = .next t ∧
      (running [.write 1 1]).uart? 1 = some u ∧ t.uart? 1 = some u' ∧ t.last = .taken ∧
      txEv u = true ∧ isEmpty u.txb = false) ∧
    (∀ i ∈ [Instr.txLoad 1, .txShiftDone 1, .dispatch 1],
      i.port ≠ .buffer ∧ ∀ v, i ≠ .write 1 v) := by
  refine ⟨⟨_, _, _, by decide, rfl, rfl, rfl, rfl⟩, ⟨_, _, _, by decide, rfl, rfl, rfl, rfl⟩,
    ⟨_, _, _, by decide, rfl, rfl, rfl, rfl, by decide, by decide⟩, ?_⟩
  intro i hi
  have h : i = .txLoad 1 ∨ i = .txShiftDone 1 ∨ i = .dispatch 1 := by simpa using hi
  obtain rfl | rfl | rfl := h <;> exact ⟨by decide, by simp⟩

/-- One byte queued, one in the transmit register and one in the shift register: `3 + 2 + 1`. -/
theorem witness_TransmitterCanBeEmptied :
    (running [.write 1 1, .write 1 2, .dispatch 1, .txLoad 1, .dispatch 1, .write 1 3]).txInv ∧
    ∃ u, (running [.write 1 1, .write 1 2, .dispatch 1, .txLoad 1, .dispatch 1,
      .write 1 3]).uart? 1 = some u ∧ txWork
        (running [.write 1 1, .write 1 2, .dispatch 1, .txLoad 1, .dispatch 1,
          .write 1 3]).params u = 6 :=
  ⟨⟨by decide, by decide⟩, _, rfl, by decide⟩

end Sys2Proof.Tests
end

section
/-! PROOFS. Every step keeps a state well formed: the parameters are fixed data, and each change of an
instance is made of operations that keep its buffers and its guard counter in bounds. -/

namespace Sys2Proof.Machine

/-! ### The parameters and the descriptors -/

@[simp] theorem tickUart_desc (p : Params) (u : Uart) : (tickUart p u).desc = u.desc := by
  unfold tickUart
  split <;> rfl

/-- An operation changes no descriptor (70_reset_and_hazards.md R242). -/
theorem UartsAfter.descs_eq {i : Instr} {s t : State} (h : UartsAfter i s t) :
    t.uarts.map (fun u => u.desc) = s.uarts.map fun u => u.desc := by
  obtain ht | ⟨j, u, u', -, hu, hc, ht⟩ | ⟨-, ht⟩ := h
  · rw [ht]
  · obtain ⟨hj, hget⟩ := uart?_eq_some_iff.1 hu
    have hd : u'.desc = (s.uarts.map fun u => u.desc)[j.toNat]'(by simpa using hj) := by
      simp [hget, hc.desc_eq]
    rw [ht, List.map_set, hd, List.set_getElem_self]
  · simp [ht]

/-- A step changes no descriptor. -/
theorem step_descs_eq {s t : State} (h : step s = .next t) :
    t.uarts.map (fun u => u.desc) = s.uarts.map fun u => u.desc := by
  obtain ⟨-, turn, rest, -, -, ht | ⟨i, -, ha⟩⟩ := step_uarts h
  · rw [ht]
  · exact ha.descs_eq

/-- The bounds on the parameters speak of the parameters and the descriptors alone. -/
theorem paramsWf_of_descs_eq {s t : State} (hp : t.params = s.params)
    (hd : t.uarts.map (fun u => u.desc) = s.uarts.map fun u => u.desc) (h : s.paramsWf) :
    t.paramsWf := by
  obtain ⟨hpar, hmin, hmax, hpins, hvec⟩ := h
  have hlen : t.numUart = s.numUart := by simpa using congrArg List.length hd
  refine ⟨hp ▸ hpar, hlen ▸ hmin, hlen ▸ hmax, ?_, ?_⟩
  · intro u hu
    have hmem : u.desc ∈ s.uarts.map fun u => u.desc := hd ▸ List.mem_map_of_mem hu
    obtain ⟨v, hv, hvu⟩ := List.mem_map.1 hmem
    exact hvu ▸ hpins v hv
  · have hids : t.uarts.map (fun u => u.desc.vecId) = s.uarts.map fun u => u.desc.vecId := by
      simpa [Function.comp_def] using congrArg (List.map Descriptor.vecId) hd
    exact hids ▸ hvec

/-! ### Each part of a change keeps an instance well formed -/

/-- A guard counter never passes `GUARD_TICKS` (43_environment_timer.md R194). -/
theorem guardTick_le {p : Params} {cnt : Nat} (h : cnt ≤ p.guardTicks) :
    guardTick p cnt ≤ p.guardTicks := by
  unfold guardTick
  split <;> omega

section Instances
variable {p : Params} {u : Uart} (h : uartWf p u)
include h

theorem uartWf_buf (d : Side) : bufWf (slots p) (u.buf d) := by
  obtain ⟨hrx, htx, -, -⟩ := h
  cases d
  · exact hrx
  · exact htx

theorem uartWf_setBuf (d : Side) {b : Buf} (hb : bufWf (slots p) b) :
    uartWf p (u.setBuf d b) := by
  obtain ⟨hrx, htx, hgrd⟩ := h
  cases d
  · exact ⟨hb, htx, hgrd⟩
  · exact ⟨hrx, hb, hgrd⟩

/-- The registers of the controller and of the peripheral are free, and so is the line. -/
theorem uartWf_registers (c : Ctl) (per : Per) (w : List Byte) :
    uartWf p { u with ctl := c, per := per, wire := w } := h

theorem tickUart_uartWf : uartWf p (tickUart p u) := by
  obtain ⟨hrx, htx, hle, hzero⟩ := h
  unfold tickUart
  split
  · next hg =>
    exact ⟨hrx, htx, guardTick_le hle, fun hn => absurd (hg.symm.trans hn) (by decide)⟩
  · exact ⟨hrx, htx, hle, hzero⟩

variable (hp : p.wf)
include hp

theorem beginSequence_uartWf (m : Byte) (f : Frame) (baud : BitVec 32) :
    uartWf p (beginSequence p u m f baud) := by
  obtain ⟨hrx, htx, hle, hzero⟩ := h
  have hn := two_le_slots hp
  rw [beginSequence_eq]
  refine ⟨clear_bufWf hn hrx, clear_bufWf hn htx, ?_, ?_⟩
  · dsimp only
    split <;> omega
  · intro hg
    simp [show u.desc.bootGuardEn = false from hg, hzero hg]

theorem endSequence_uartWf : uartWf p (endSequence u) := by
  obtain ⟨hrx, htx, hgrd⟩ := h
  have hn := two_le_slots hp
  exact ⟨clear_bufWf hn hrx, clear_bufWf hn htx, hgrd⟩

theorem receivePart_uartWf : uartWf p (receivePart p u).1 := by
  cases hc : u.ctl.cbAttached with
  | true =>
    rw [receivePart_callback p u hc]
    exact h
  | false =>
    rw [receivePart_buffered p u hc]
    exact uartWf_setBuf h .rx (store_bufWf (two_le_slots hp) (uartWf_buf h .rx) _)

theorem transmitPart_uartWf (i : Inst) : uartWf p (transmitPart p i u) := by
  cases he : isEmpty u.txb with
  | true =>
    rw [transmitPart_empty p i u he]
    exact h
  | false =>
    rw [transmitPart_queued p i u he]
    exact uartWf_setBuf h .tx (readByte_bufWf (two_le_slots hp) _ (uartWf_buf h .tx))

theorem serviceBoth_uartWf (i : Inst) : uartWf p (serviceBoth p i u).1 := by
  obtain ⟨-, -, hs⟩ | ⟨-, -, hs⟩ | ⟨-, -, hs⟩ | ⟨-, -, hs⟩ := serviceBoth_cases p i u <;> rw [hs]
  · exact transmitPart_uartWf (receivePart_uartWf h hp) hp i
  · exact receivePart_uartWf h hp
  · exact transmitPart_uartWf h hp i
  · exact h

end Instances

/-- What an operation does to its instance keeps it well formed. -/
theorem Change.keeps_uartWf {p : Params} {i : Instr} {u u' : Uart} (hc : Change p i u u')
    (hp : p.wf) (h : uartWf p u) : uartWf p u' := by
  have hn := two_le_slots hp
  cases hc with
  | setpins | attach | detach | rxArrive | txLoad | txShiftDone => exact uartWf_registers h _ _ _
  | begin _ m baud _ f => exact beginSequence_uartWf h hp m f baud
  | ending => exact endSequence_uartWf h hp
  | read => exact uartWf_setBuf h .rx (readByte_bufWf hn _ (uartWf_buf h .rx))
  | write => exact uartWf_setBuf h .tx (store_bufWf hn (uartWf_buf h .tx) _)
  | bufStore id => exact uartWf_setBuf h id.side (store_bufWf hn (uartWf_buf h id.side) _)
  | bufRead id => exact uartWf_setBuf h id.side (readByte_bufWf hn _ (uartWf_buf h id.side))
  | bufClear id => exact uartWf_setBuf h id.side (clear_bufWf hn (uartWf_buf h id.side))
  | dispatch i => exact serviceBoth_uartWf h hp i

/-! ### The step -/

/-- A step from a well-formed state leaves every instance well formed. -/
theorem step_uartWf {s t : State} (hwf : s.wf) (h : step s = .next t) :
    ∀ u ∈ t.uarts, uartWf s.params u := by
  obtain ⟨⟨hp, -⟩, hall⟩ := hwf
  obtain ⟨-, turn, rest, -, -, ht | ⟨i, -, ha⟩⟩ := step_uarts h
  · exact ht ▸ hall
  · exact ha.all (P := uartWf) hall (fun u u' _ hc hu => hc.keeps_uartWf hp hu)
      fun u _ hu => tickUart_uartWf hu

/-- Settles O51: no step writes a parameter or a descriptor, and each change of an instance keeps its
buffers and its guard counter in bounds. -/
theorem stepKeepsStateWellFormed : Obligations.StepKeepsStateWellFormed := by
  intro s t hwf h
  obtain ⟨hp, -⟩ := step_uarts h
  exact ⟨paramsWf_of_descs_eq hp (step_descs_eq h) hwf.1, hp ▸ step_uartWf hwf h⟩

end Sys2Proof.Machine
end

section
/-! PROOFS. An event that is not enabled changes nothing of the core (00_scope.md R13). -/

namespace Sys2Proof.Machine

/-- `irq(i)` is clear without the clock, and where neither event is pending (42_dispatch.md R171). -/
theorem irq_eq_false_iff {u : Uart} :
    irq u = false ↔ u.per.clkEn = false ∨
      (u.per.rxReady = false ∨ u.per.rxIrqEn = false) ∧
      (u.per.txEmpty = false ∨ u.per.txIrqEn = false) := by
  simp only [irq, rxEv, txEv, Bool.and_eq_false_iff, Bool.or_eq_false_iff]

/-- 43_environment_timer.md R192. -/
theorem txLoadEnabled_eq_false_iff {u : Uart} :
    txLoadEnabled u = false ↔
      u.per.clkEn = false ∨ u.per.txEmpty = true ∨ u.per.shBusy = true := by
  simp only [txLoadEnabled, Bool.and_eq_false_iff, Bool.not_eq_false', or_assoc]

/-- R193. -/
theorem txShiftDoneEnabled_eq_false_iff {u : Uart} :
    txShiftDoneEnabled u = false ↔ u.per.clkEn = false ∨ u.per.shBusy = false :=
  Bool.and_eq_false_iff

/-- Settles O43: each of the four events runs only where its enabling condition holds, and the turn
passes where it does not. -/
theorem disabledEventChangesNothing : Obligations.DisabledEventChangesNothing := by
  intro s j u hu i hi
  have hpass : exec i s = .next (notEnabled s) := by
    obtain ⟨rfl, hd⟩ | ⟨⟨v, k, rfl⟩, hd⟩ | ⟨rfl, hd⟩ | ⟨rfl, hd⟩ := hi
    · exact onEvent_disabled hu (irq_eq_false_iff.2 hd) _
    · exact onEvent_disabled (enabled := rxArriveEnabled) hu hd _
    · exact onEvent_disabled hu (txLoadEnabled_eq_false_iff.2 hd) _
    · exact onEvent_disabled hu (txShiftDoneEnabled_eq_false_iff.2 hd) _
  exact ⟨notEnabled s, hpass, ⟨rfl, rfl, rfl, rfl, rfl⟩, rfl, rfl, rfl⟩

end Sys2Proof.Machine
end

section
/-! PROOFS. Every step of an agent keeps (I1) to (I6) of 10_state.md R46. (I6) is a bound that every
well-formed buffer keeps. (I1) to (I5), the predicate `ControlInv`, are kept by each change, since the
events run only where the clock is on, and there the lifecycle state is active. -/

namespace Sys2Proof

/-! ### An agent's turn asks for no buffer operation -/

theorem eventOn_op {n : Nat} {inst : Inst} {i j : Instr} (h : eventOn n inst j = .op i) : i = j := by
  unfold eventOn at h
  split at h
  · exact (Decoded.op.inj h).symm
  · nomatch h

theorem decodeCmd_port {w : CmdWord} {i : Instr} (h : decodeCmd w = .op i) : i.port = .host := by
  unfold decodeCmd at h
  dsimp only at h
  split at h <;> cases h <;> rfl

theorem decodeEvt_port {n : Nat} {w : EvtWord} {i : Instr} (h : decodeEvt n w = .op i) :
    i.port = .event := by
  unfold decodeEvt at h
  dsimp only at h
  split at h
  · exact eventOn_op h ▸ rfl
  · exact eventOn_op h ▸ rfl
  · exact eventOn_op h ▸ rfl
  · exact eventOn_op h ▸ rfl
  · exact Decoded.op.inj h ▸ rfl
  · nomatch h

end Sys2Proof

namespace Sys2Proof.Machine

theorem askedOf_op {d : Decoded} {i : Instr} (h : askedOf d = .op i) : d = .op i := by
  cases d with
  | op => exact congrArg Decoded.op (Asked.op.inj h)
  | reservedOp | reservedBop | reservedEvent | absentInstance => nomatch h

/-- The buffer port is the test bench's alone (30_encoding.md R80). -/
theorem asked_port_ne_buffer {turn : Turn} {s : State} {i : Instr} (ht : turn.ofAgent = true)
    (h : asked turn s = .op i) : i.port ≠ .buffer := by
  cases turn with
  | host =>
    unfold asked at h
    dsimp only at h
    split at h
    · nomatch h
    · simp [decodeCmd_port (askedOf_op h)]
  | vector v =>
    unfold asked at h
    dsimp only at h
    split at h
    · nomatch h
    · exact Asked.op.inj h ▸ nofun
  | event w => simp [decodeEvt_port (askedOf_op h)]
  | bench => nomatch ht

/-- A property of single instances that every change but the bench's keeps is kept by every step of an
agent. -/
theorem agentStep_all {P : Params → Uart → Prop} {s t : State} {turn : Turn} {rest : List Turn}
    (hts : s.turns = turn :: rest) (ha : turn.ofAgent = true) (h : step s = .next t)
    (hall : ∀ u ∈ s.uarts, P s.params u)
    (hchange : ∀ i u u', i.port ≠ .buffer → u ∈ s.uarts → Change s.params i u u' →
      P s.params u → P s.params u')
    (htick : ∀ u ∈ s.uarts, P s.params u → P s.params (tickUart s.params u)) :
    ∀ u ∈ t.uarts, P s.params u := by
  obtain ⟨-, turn', rest', hts', -, ht | ⟨i, hask, hu⟩⟩ := step_uarts h
  · exact ht ▸ hall
  · obtain ⟨rfl, rfl⟩ := List.cons.inj (hts.symm.trans hts')
    have hport := asked_port_ne_buffer ha hask
    exact hu.all (P := P) hall (fun u u' hm hc => hchange i u u' hport hm hc) htick

/-! ### The invariants (I1) to (I5) -/

/-- (I1) to (I5) of 10_state.md R46 on one instance. -/
structure ControlInv (u : Uart) : Prop where
  notConfiguring : u.ctl.life ≠ .configuring
  idle : u.ctl.life = .idle →
    u.per.clkEn = false ∧ u.per.rxIrqEn = false ∧ u.per.txIrqEn = false ∧
    isEmpty u.rxb = true ∧ isEmpty u.txb = true ∧ u.per.rxReady = false ∧
    u.per.txEmpty = true ∧ u.per.txComplete = true ∧ u.per.shBusy = false
  active : u.ctl.life = .active → u.per.clkEn = true ∧ u.per.rxIrqEn = true
  queued : isEmpty u.txb = false → u.per.txIrqEn = true
  complete : u.per.txComplete = true → u.per.txEmpty = true ∧ u.per.shBusy = false

/-- (I6) holds of every well-formed instance, so the rest of R46 is `ControlInv`. -/
theorem uartInv_iff_controlInv {p : Params} {u : Uart} (h : uartWf p u) :
    uartInv p u ↔ ControlInv u := by
  constructor
  · rintro ⟨hconf, hidle, hact, hq, hcomp, -⟩
    exact ⟨hconf, hidle, hact, hq, hcomp⟩
  · rintro ⟨hconf, hidle, hact, hq, hcomp⟩
    obtain ⟨⟨-, -, hrxw, hrxr, -⟩, ⟨-, -, htxw, htxr, -⟩, -⟩ := h
    exact ⟨hconf, hidle, hact, hq, hcomp, Nat.le_sub_one_of_lt (count_lt hrxw hrxr),
      Nat.le_sub_one_of_lt (count_lt htxw htxr)⟩

/-- What is left to show of an active instance. -/
theorem controlInv_of_active {u : Uart} (ha : u.ctl.life = .active)
    (hen : u.per.clkEn = true ∧ u.per.rxIrqEn = true)
    (hq : isEmpty u.txb = false → u.per.txIrqEn = true)
    (hc : u.per.txComplete = true → u.per.txEmpty = true ∧ u.per.shBusy = false) :
    ControlInv u where
  notConfiguring := by simp [ha]
  idle hi := nomatch ha.symm.trans hi
  active _ := hen
  queued := hq
  complete := hc

theorem beginSequence_controlInv (p : Params) (u : Uart) (m : Byte) (f : Frame)
    (baud : BitVec 32) : ControlInv (beginSequence p u m f baud) := by
  rw [beginSequence_eq]
  exact controlInv_of_active rfl ⟨rfl, rfl⟩
    (fun hq => nomatch hq.symm.trans (clear_isEmpty (b := u.txb))) fun _ => ⟨rfl, rfl⟩

theorem endSequence_controlInv (u : Uart) : ControlInv (endSequence u) := by
  rw [endSequence_eq]
  exact
    { notConfiguring := nofun
      idle := fun _ => ⟨rfl, rfl, rfl, clear_isEmpty, clear_isEmpty, rfl, rfl, rfl, rfl⟩
      active := nofun
      queued := fun hq => nomatch hq.symm.trans (clear_isEmpty (b := u.txb))
      complete := fun _ => ⟨rfl, rfl⟩ }

section Kept
variable {u : Uart} (h : ControlInv u)
include h

/-- (I2) with (I1): the clock is on in no other lifecycle state. -/
theorem ControlInv.active_of_clkEn (hclk : u.per.clkEn = true) : u.ctl.life = .active := by
  cases hl : u.ctl.life with
  | idle => exact nomatch hclk.symm.trans (h.idle hl).1
  | configuring => exact absurd hl h.notConfiguring
  | active => rfl

/-- The controller's other registers are free. -/
theorem ControlInv.set_ctl {c : Ctl} (hl : c.life = u.ctl.life) :
    ControlInv { u with ctl := c } where
  notConfiguring hc := h.notConfiguring (hl.symm.trans hc)
  idle hi := h.idle (hl.symm.trans hi)
  active ha := h.active (hl.symm.trans ha)
  queued := h.queued
  complete := h.complete

theorem ControlInv.set_rxb {b : Buf} (hb : isEmpty u.rxb = true → isEmpty b = true) :
    ControlInv { u with rxb := b } :=
  { h with
    idle := fun hi => by
      obtain ⟨hclk, hrx, htx, hrxb, hrest⟩ := h.idle hi
      exact ⟨hclk, hrx, htx, hb hrxb, hrest⟩ }

variable (hclk : u.per.clkEn = true)
include hclk

/-- While the clock is on, the registers of reception, `RXB` and the line are free. -/
theorem ControlInv.set_receive (ready : Bool) (v : Byte) (b : Buf) :
    ControlInv { u with per := { u.per with rxReady := ready, rxData := v }, rxb := b } :=
  have ha := h.active_of_clkEn hclk
  controlInv_of_active ha (h.active ha) h.queued h.complete

theorem receivePart_controlInv (p : Params) : ControlInv (receivePart p u).1 := by
  rw [receivePart_frame]
  exact h.set_receive hclk false u.per.rxData _

/-- (I4) is kept because the transmit engine turns its line off only once `TXB` is empty (R173). -/
theorem transmitPart_controlInv (p : Params) (i : Inst) : ControlInv (transmitPart p i u) := by
  have ha := h.active_of_clkEn hclk
  cases he : isEmpty u.txb with
  | true =>
    rw [transmitPart_empty p i u he]
    exact controlInv_of_active ha (h.active ha) (fun hq => nomatch he.symm.trans hq) h.complete
  | false =>
    rw [transmitPart_queued p i u he]
    refine controlInv_of_active ha (h.active ha) (fun hq => ?_) nofun
    exact (if_neg (Bool.eq_false_iff.1 hq)).trans (h.queued he)

theorem serviceBoth_controlInv (p : Params) (i : Inst) : ControlInv (serviceBoth p i u).1 := by
  have hclk' : (receivePart p u).1.per.clkEn = true := by
    rw [receivePart_frame]
    exact hclk
  obtain ⟨-, -, hs⟩ | ⟨-, -, hs⟩ | ⟨-, -, hs⟩ | ⟨-, -, hs⟩ := serviceBoth_cases p i u <;> rw [hs]
  · exact transmitPart_controlInv (receivePart_controlInv h hclk p) hclk' p i
  · exact receivePart_controlInv h hclk p
  · exact transmitPart_controlInv h hclk p i
  · exact h

end Kept

theorem readByte_keeps_isEmpty (id : BufId) (n : Nat) {b : Buf} (h : isEmpty b = true) :
    isEmpty (readByte id n b).1 = true := by
  rw [readByte_empty id h]
  exact h

/-! ### The enabling conditions of the events -/

theorem clkEn_of_irq {u : Uart} (h : irq u = true) : u.per.clkEn = true :=
  (Bool.and_eq_true_iff.1 h).1

theorem txLoadEnabled_iff {u : Uart} : txLoadEnabled u = true ↔
    u.per.clkEn = true ∧ u.per.txEmpty = false ∧ u.per.shBusy = false := by
  simp only [txLoadEnabled, Bool.and_eq_true, Bool.not_eq_true', and_assoc]

theorem txShiftDoneEnabled_iff {u : Uart} :
    txShiftDoneEnabled u = true ↔ u.per.clkEn = true ∧ u.per.shBusy = true :=
  Bool.and_eq_true_iff

/-- What an operation other than the bench's does to its instance keeps (I1) to (I5). -/
theorem Change.keeps_controlInv {p : Params} {i : Instr} {u u' : Uart} (hc : Change p i u u')
    (hport : i.port ≠ .buffer) (h : ControlInv u) : ControlInv u' := by
  cases hc with
  | setpins | attach | detach => exact h.set_ctl rfl
  | begin _ m baud _ f => exact beginSequence_controlInv p u m f baud
  | ending => exact endSequence_controlInv u
  | read => exact h.set_rxb (readByte_keeps_isEmpty _ _)
  | write _ _ _ ha => exact controlInv_of_active ha (h.active ha) (fun _ => rfl) h.complete
  | bufStore | bufRead | bufClear => exact absurd rfl hport
  | dispatch i _ he => exact serviceBoth_controlInv h (clkEn_of_irq he) p i
  | rxArrive _ _ _ _ he => exact h.set_receive he _ _ _
  | txLoad _ _ he =>
    obtain ⟨hclk, hemp, -⟩ := txLoadEnabled_iff.1 he
    have ha := h.active_of_clkEn hclk
    exact controlInv_of_active ha (h.active ha) h.queued fun hcomp =>
      nomatch hemp.symm.trans (h.complete hcomp).1
  | txShiftDone _ _ he =>
    obtain ⟨hclk, hbusy⟩ := txShiftDoneEnabled_iff.1 he
    have ha := h.active_of_clkEn hclk
    refine controlInv_of_active ha (h.active ha) h.queued fun hcomp => ⟨?_, rfl⟩
    cases hemp : u.per.txEmpty with
    | true => rfl
    | false =>
      have hcomp' : u.per.txComplete = true := by simpa [hemp] using hcomp
      exact nomatch hbusy.symm.trans (h.complete hcomp').2

/-- A tick writes the guard counter and nothing else (43_environment_timer.md R194). -/
theorem tickUart_frame (p : Params) (u : Uart) :
    tickUart p u = { u with grdCnt := (tickUart p u).grdCnt } := by
  unfold tickUart
  split <;> rfl

theorem tickUart_controlInv {p : Params} {u : Uart} (h : ControlInv u) :
    ControlInv (tickUart p u) := by
  rw [tickUart_frame]
  exact { h with }

/-- Settles O52: well-formedness, and with it (I6), is kept by every step, and (I1) to (I5) by each
change that an agent's turn can ask for. -/
theorem agentStepsKeepInvariants : Obligations.AgentStepsKeepInvariants := by
  rintro s t turn rest ⟨hwf, hinv⟩ hts ha h
  obtain ⟨hp, -⟩ := step_uarts h
  have hwf' : t.wf := stepKeepsStateWellFormed s t hwf h
  have hctl : ∀ u ∈ t.uarts, ControlInv u :=
    agentStep_all (P := fun _ => ControlInv) hts ha h
      (fun u hu => (uartInv_iff_controlInv (hwf.2 u hu)).1 (hinv u hu))
      (fun i u u' hport _ hc hu => hc.keeps_controlInv hport hu)
      (fun u _ hu => tickUart_controlInv hu)
  exact ⟨hwf', fun u hu => (uartInv_iff_controlInv (hwf'.2 u hu)).2 (hctl u hu)⟩

end Sys2Proof.Machine
end

section
/-! PROOFS. Every step of an agent keeps the two transmit facts: what the transmitter does while it has
work happens outside the guard window, and the window only closes but by `BEGIN`, which leaves the
transmitter idle (43_environment_timer.md R192 to R195). -/

namespace Sys2Proof.Machine

/-- The two facts of an instance outside its guard window. -/
theorem uartTxInv_of_unguarded {p : Params} {u : Uart} (hg : guardActive p u = false)
    (hc : u.per.txEmpty = true → u.per.shBusy = false → u.per.txComplete = true) :
    uartTxInv p u :=
  ⟨hc, fun hg' => nomatch hg.symm.trans hg'⟩

/-- The two facts of an instance with nothing to send. -/
theorem uartTxInv_of_idle {p : Params} {u : Uart} (hb : isEmpty u.txb = true)
    (hirq : u.per.txIrqEn = false) (hemp : u.per.txEmpty = true) (hsh : u.per.shBusy = false)
    (hc : u.per.txComplete = true) : uartTxInv p u :=
  ⟨fun _ _ => hc, fun _ => ⟨hb, hirq, hemp, hsh⟩⟩

/-- A tick opens no guard window (R194). -/
theorem guardActive_of_tickUart {p : Params} {u : Uart}
    (h : guardActive p (tickUart p u) = true) : guardActive p u = true := by
  unfold tickUart at h
  split at h
  · next hg =>
    have hlt : guardTick p u.grdCnt < p.guardTicks := by simpa [guardActive, hg] using h
    have hcnt : u.grdCnt < p.guardTicks := by
      unfold guardTick at hlt
      split at hlt <;> omega
    simp [guardActive, hg, hcnt]
  · exact h

theorem beginSequence_uartTxInv (p : Params) (u : Uart) (m : Byte) (f : Frame)
    (baud : BitVec 32) : uartTxInv p (beginSequence p u m f baud) := by
  rw [beginSequence_eq]
  exact uartTxInv_of_idle clear_isEmpty rfl rfl rfl rfl

theorem endSequence_uartTxInv (p : Params) (u : Uart) : uartTxInv p (endSequence u) := by
  rw [endSequence_eq]
  exact uartTxInv_of_idle clear_isEmpty rfl rfl rfl rfl

section Kept
variable {p : Params} {u : Uart} (h : uartTxInv p u)
include h

/-- A transmitter that has a byte in its buffer or a register is outside the guard window. -/
theorem unguarded_of_work
    (hw : isEmpty u.txb = false ∨ u.per.txEmpty = false ∨ u.per.shBusy = true) :
    guardActive p u = false := by
  rw [Bool.eq_false_iff]
  intro hg
  obtain ⟨hb, -, hemp, hsh⟩ := h.2 hg
  obtain hw | hw | hw := hw
  · exact nomatch hb.symm.trans hw
  · exact nomatch hemp.symm.trans hw
  · exact nomatch hsh.symm.trans hw

/-- The controller's registers, the registers of reception, `RXB` and the line are free. -/
theorem uartTxInv_receive (c : Ctl) (ready : Bool) (v : Byte) (b : Buf) (w : List Byte) :
    uartTxInv p
      { u with
        ctl := c, per := { u.per with rxReady := ready, rxData := v }, rxb := b, wire := w } :=
  h

theorem receivePart_uartTxInv : uartTxInv p (receivePart p u).1 := by
  rw [receivePart_frame]
  exact uartTxInv_receive h u.ctl false u.per.rxData _ u.wire

theorem transmitPart_uartTxInv (i : Inst) : uartTxInv p (transmitPart p i u) := by
  cases he : isEmpty u.txb with
  | true =>
    rw [transmitPart_empty p i u he]
    exact ⟨h.1, fun hg => (h.2 hg).imp_right fun ⟨_, hregs⟩ => ⟨rfl, hregs⟩⟩
  | false =>
    have hg := unguarded_of_work h (.inl he)
    rw [transmitPart_queued p i u he]
    exact uartTxInv_of_unguarded hg nofun

theorem serviceBoth_uartTxInv (i : Inst) : uartTxInv p (serviceBoth p i u).1 := by
  obtain ⟨-, -, hs⟩ | ⟨-, -, hs⟩ | ⟨-, -, hs⟩ | ⟨-, -, hs⟩ := serviceBoth_cases p i u <;> rw [hs]
  · exact transmitPart_uartTxInv (receivePart_uartTxInv h) i
  · exact receivePart_uartTxInv h
  · exact transmitPart_uartTxInv h i
  · exact h

theorem tickUart_uartTxInv : uartTxInv p (tickUart p u) := by
  have hg : guardActive p (tickUart p u) = true → guardActive p u = true :=
    guardActive_of_tickUart
  obtain ⟨hcomp, hidle⟩ := h
  rw [tickUart_frame] at hg ⊢
  exact ⟨hcomp, fun hg' => hidle (hg hg')⟩

end Kept

/-- What an operation other than the bench's does to its instance keeps the two facts. -/
theorem Change.keeps_uartTxInv {p : Params} {i : Instr} {u u' : Uart} (hc : Change p i u u')
    (hport : i.port ≠ .buffer) (h : uartTxInv p u) : uartTxInv p u' := by
  cases hc with
  | setpins | attach | detach | read | rxArrive => exact uartTxInv_receive h _ _ _ _ _
  | begin _ m baud _ f => exact beginSequence_uartTxInv p u m f baud
  | ending => exact endSequence_uartTxInv p u
  | write _ _ _ _ hg => exact uartTxInv_of_unguarded hg h.1
  | bufStore | bufRead | bufClear => exact absurd rfl hport
  | dispatch i => exact serviceBoth_uartTxInv h i
  | txLoad _ _ he =>
    obtain ⟨-, hemp, -⟩ := txLoadEnabled_iff.1 he
    have hg := unguarded_of_work h (.inr (.inl hemp))
    exact uartTxInv_of_unguarded hg nofun
  | txShiftDone _ _ he =>
    obtain ⟨-, hbusy⟩ := txShiftDoneEnabled_iff.1 he
    have hg := unguarded_of_work h (.inr (.inr hbusy))
    exact uartTxInv_of_unguarded hg fun hemp _ => if_pos hemp

/-- Settles O53: R46 is kept (O52), and each change that an agent's turn can ask for keeps the two
facts beside it. -/
theorem agentStepsKeepTransmitInvariants : Obligations.AgentStepsKeepTransmitInvariants := by
  rintro s t turn rest ⟨hinv, htx⟩ hts ha h
  obtain ⟨hp, -⟩ := step_uarts h
  refine ⟨agentStepsKeepInvariants s t turn rest hinv hts ha h, hp ▸ ?_⟩
  exact agentStep_all (P := uartTxInv) hts ha h htx
    (fun i u u' hport _ hc hu => hc.keeps_uartTxInv hport hu) fun u _ hu => tickUart_uartTxInv hu

end Sys2Proof.Machine
end

section
/-! PROOFS. The reset state of every core within the bounds meets all the invariants. -/

namespace Sys2Proof.Machine

/-! ### One instance at reset -/

theorem reset_uartWf {p : Params} (hp : p.wf) (i : Nat) (d : Descriptor) :
    uartWf p (Uart.reset i d) :=
  have hn := two_le_slots hp
  ⟨reset_bufWf hn, reset_bufWf hn, Nat.zero_le _, fun _ => rfl⟩

theorem reset_controlInv (i : Nat) (d : Descriptor) : ControlInv (Uart.reset i d) where
  notConfiguring := nofun
  idle _ := ⟨rfl, rfl, rfl, rfl, rfl, rfl, rfl, rfl, rfl⟩
  active := nofun
  queued := nofun
  complete _ := ⟨rfl, rfl⟩

theorem reset_uartTxInv (p : Params) (i : Nat) (d : Descriptor) :
    uartTxInv p (Uart.reset i d) :=
  uartTxInv_of_idle rfl rfl rfl rfl rfl

/-! ### The core at reset -/

theorem mem_resetWith_uarts {p : Params} {ds : List Descriptor} {u : Uart}
    (hu : u ∈ (State.resetWith p ds).uarts) : ∃ i, ∃ d ∈ ds, u = Uart.reset i d := by
  obtain ⟨i, hi, rfl⟩ := List.mem_mapIdx.1 hu
  exact ⟨i, ds[i], List.getElem_mem hi, rfl⟩

theorem resetWith_numUart (p : Params) (ds : List Descriptor) :
    (State.resetWith p ds).numUart = ds.length :=
  List.length_mapIdx

theorem resetWith_vecIds (p : Params) (ds : List Descriptor) :
    (State.resetWith p ds).uarts.map (fun u => u.desc.vecId) = ds.map fun d => d.vecId :=
  List.ext_getElem (by simp [State.resetWith]) (by simp [State.resetWith, Uart.reset])

/-- The reset state meets all the invariants where the parameters keep the bounds of 00_scope.md. -/
theorem resetWith_txInv {p : Params} {ds : List Descriptor} (hp : p.wf) (hmin : 1 ≤ ds.length)
    (hmax : ds.length ≤ 16) (hpins : ∀ d ∈ ds, d.defaultTxPin ≠ d.defaultRxPin)
    (hvec : (ds.map fun d => d.vecId).Nodup) : (State.resetWith p ds).txInv := by
  have hparams : (State.resetWith p ds).paramsWf := by
    refine ⟨hp, resetWith_numUart p ds ▸ hmin, resetWith_numUart p ds ▸ hmax, ?_,
      resetWith_vecIds p ds ▸ hvec⟩
    intro u hu
    obtain ⟨i, d, hd, rfl⟩ := mem_resetWith_uarts hu
    exact hpins d hd
  refine ⟨⟨⟨hparams, ?_⟩, ?_⟩, ?_⟩ <;> intro u hu <;>
    obtain ⟨i, d, -, rfl⟩ := mem_resetWith_uarts hu
  · exact reset_uartWf hp i d
  · exact (uartInv_iff_controlInv (reset_uartWf hp i d)).2 (reset_controlInv i d)
  · exact reset_uartTxInv p i d

theorem descriptors_pins_distinct :
    ∀ d ∈ Config.descriptors, d.defaultTxPin ≠ d.defaultRxPin := by
  simp [Config.descriptors, Config.descriptor_pins_distinct]

/-- Settles O55: every instance is idle and its buffers are empty, and the OPEN parameters of
`State.reset` keep the bounds. -/
theorem resetMeetsInvariants : Obligations.ResetMeetsInvariants :=
  ⟨fun _ _ => resetWith_txInv,
    resetWith_txInv Config.params_wf (by decide) (by decide) descriptors_pins_distinct
      Config.vecId_nodup⟩

end Sys2Proof.Machine
end

section
/-! PROOFS. Of the storage only the slot that an operation stores to changes (10_state.md R23). -/

namespace Sys2Proof.Machine

/-! ### What each buffer operation does to the storage -/

/-- A store writes no slot but the one at the write index (40_buffer.md R112). -/
theorem store_byteAt?_ne (n : Nat) (b : Buf) (v : Byte) {k : Nat} (hk : k ≠ b.w) :
    (store n b v).1.mem.byteAt? k = b.mem.byteAt? k := by
  cases h : isFull n b with
  | true => rw [store_full h]
  | false =>
    rw [store_room h]
    exact put_byteAt?_ne _ _ hk

@[simp] theorem readByte_mem (id : BufId) (n : Nat) (b : Buf) :
    (readByte id n b).1.mem = b.mem := by
  cases h : isEmpty b with
  | true => rw [readByte_empty id h]
  | false => rw [readByte_some id h]

@[simp] theorem clear_mem (b : Buf) : (clear b).mem = b.mem := rfl

/-! ### What each change of an instance does to the storage -/

theorem setBuf_buf_ne (u : Uart) (b : Buf) {d e : Side} (h : d ≠ e) :
    (u.setBuf d b).buf e = u.buf e := by
  cases d <;> cases e <;> trivial

/-- A buffer put back with its storage unchanged leaves the storage of both buffers. -/
theorem setBuf_buf_mem {u : Uart} {d : Side} {b : Buf} (h : b.mem = (u.buf d).mem) (e : Side) :
    ((u.setBuf d b).buf e).mem = (u.buf e).mem := by
  by_cases hd : d = e
  · subst hd
    rw [buf_setBuf, h]
  · rw [setBuf_buf_ne u b hd]

theorem receivePart_byteAt?_ne (p : Params) (u : Uart) {k : Nat} (hk : k ≠ u.rxb.w) :
    (receivePart p u).1.rxb.mem.byteAt? k = u.rxb.mem.byteAt? k := by
  cases h : u.ctl.cbAttached with
  | true => rw [receivePart_callback p u h]
  | false =>
    rw [receivePart_buffered p u h]
    exact store_byteAt?_ne _ _ _ hk

theorem transmitPart_txb_mem (p : Params) (i : Inst) (u : Uart) :
    (transmitPart p i u).txb.mem = u.txb.mem := by
  cases h : isEmpty u.txb with
  | true => rw [transmitPart_empty p i u h]
  | false => rw [transmitPart_queued p i u h, readByte_mem]

@[simp] theorem receivePart_txb (p : Params) (u : Uart) : (receivePart p u).1.txb = u.txb := by
  rw [receivePart_frame]

@[simp] theorem transmitPart_rxb (p : Params) (i : Inst) (u : Uart) :
    (transmitPart p i u).rxb = u.rxb := by
  rw [transmitPart_frame]

/-- One ISR entry takes a byte from `TXB` and stores none there (42_dispatch.md R173). -/
theorem serviceBoth_txb_mem (p : Params) (i : Inst) (u : Uart) :
    (serviceBoth p i u).1.txb.mem = u.txb.mem := by
  obtain ⟨-, -, hs⟩ | ⟨-, -, hs⟩ | ⟨-, -, hs⟩ | ⟨-, -, hs⟩ := serviceBoth_cases p i u <;>
    simp [hs, transmitPart_txb_mem]

/-- One ISR entry writes no slot of `RXB` but the one at its write index (R172). -/
theorem serviceBoth_byteAt?_ne (p : Params) (i : Inst) (u : Uart) {k : Nat} (hk : k ≠ u.rxb.w) :
    (serviceBoth p i u).1.rxb.mem.byteAt? k = u.rxb.mem.byteAt? k := by
  obtain ⟨-, -, hs⟩ | ⟨-, -, hs⟩ | ⟨-, -, hs⟩ | ⟨-, -, hs⟩ := serviceBoth_cases p i u <;>
    simp [hs, receivePart_byteAt?_ne p u hk]

/-- A slot of an instance's buffers that the operation does not store to reads as before. -/
theorem Change.byteAt?_eq {s : State} {i : Instr} {j : Inst} {u u' : Uart}
    (hc : Change s.params i u u') (hj : i.inst? = some j) (hu : s.uart? j = some u) {d : Side}
    {k : Nat} (hk : storeAddress i s ≠ some (⟨j, d⟩, k)) :
    (u'.buf d).mem.byteAt? k = (u.buf d).mem.byteAt? k := by
  have kept : (u'.buf d).mem = (u.buf d).mem →
      (u'.buf d).mem.byteAt? k = (u.buf d).mem.byteAt? k := congrArg (Memory.byteAt? · k)
  have elsewhere : storeAddress i s = some (⟨j, d⟩, (u.buf d).w) → k ≠ (u.buf d).w := by
    rintro h rfl
    exact hk h
  cases hc with
  | setpins | attach | detach | rxArrive | txLoad | txShiftDone | begin | ending =>
    cases d <;> rfl
  | read => exact kept (setBuf_buf_mem (d := .rx) (readByte_mem _ _ _) d)
  | write _ v =>
    obtain rfl := Option.some.inj hj
    cases d with
    | rx => rfl
    | tx => exact store_byteAt?_ne _ _ v (elsewhere (by simp [storeAddress, hu]))
  | bufStore id v =>
    obtain rfl := Option.some.inj hj
    by_cases hd : id.side = d
    · subst hd
      rw [buf_setBuf]
      exact store_byteAt?_ne _ _ v (elsewhere (by simp [storeAddress, hu]))
    · exact kept (by rw [setBuf_buf_ne _ _ hd])
  | bufRead id => exact kept (setBuf_buf_mem (readByte_mem _ _ _) d)
  | bufClear id => exact kept (setBuf_buf_mem (clear_mem _) d)
  | dispatch =>
    obtain rfl := Option.some.inj hj
    cases d with
    | rx => exact serviceBoth_byteAt?_ne _ _ u (elsewhere (by simp [storeAddress, hu]))
    | tx => exact kept (serviceBoth_txb_mem _ _ u)

/-! ### The storage of the core -/

@[simp] theorem tickUart_buf (p : Params) (u : Uart) (d : Side) : (tickUart p u).buf d = u.buf d := by
  rw [tickUart_frame]
  cases d <;> rfl

/-- No operation adds or removes an instance. -/
theorem exec_numUart {i : Instr} {s t : State} (h : exec i s = .next t) : t.numUart = s.numUart := by
  obtain ⟨-, -, hu⟩ := exec_next h
  simpa using congrArg List.length hu.descs_eq

theorem exec_uart?_isSome {i : Instr} {s t : State} (h : exec i s = .next t) (j : Inst) :
    (t.uart? j).isSome = (s.uart? j).isSome := by
  rw [Bool.eq_iff_iff, uart?_isSome_iff, uart?_isSome_iff, exec_numUart h]

/-- An address holds the byte of its instance's buffer. -/
theorem byteAt?_of_uart? {s : State} {id : BufId} {u : Uart} (h : s.uart? id.inst = some u)
    (k : Nat) : s.byteAt? id k = some (slotByte id (u.buf id.side).mem k) := by
  simp [State.byteAt?, h]

/-- Settles O45: an operation changes at most its own instance, and of the buffers there only the slot
it stores to. -/
theorem onlyStoresWriteStorage : Obligations.OnlyStoresWriteStorage := by
  intro i s t h id k hk
  have hsome := exec_uart?_isSome h id.inst
  cases hu : s.uart? id.inst with
  | none =>
    rw [hu, Option.isSome_none, Option.isSome_eq_false_iff, Option.isNone_iff_eq_none] at hsome
    simp [State.byteAt?, hu, hsome]
  | some u =>
    rw [hu, Option.isSome_some] at hsome
    obtain ⟨u', hu'⟩ := Option.isSome_iff_exists.1 hsome
    rw [byteAt?_of_uart? hu, byteAt?_of_uart? hu']
    obtain rfl | ⟨hj, hc⟩ | ⟨-, rfl⟩ := exec_uart h hu hu'
    · rfl
    · simp only [slotByte, hc.byteAt?_eq hj hu hk]
    · rw [tickUart_buf]

end Sys2Proof.Machine
end

section
/-! PROOFS. Each of the two logs has one writer (10_state.md R45). -/

namespace Sys2Proof.Machine

/-! ### `WIRE` -/

@[simp] theorem tickUart_wire (p : Params) (u : Uart) : (tickUart p u).wire = u.wire := by
  rw [tickUart_frame]

@[simp] theorem serviceBoth_wire (p : Params) (i : Inst) (u : Uart) :
    (serviceBoth p i u).1.wire = u.wire := by
  obtain ⟨-, -, -, hw, -⟩ := serviceBoth_fields p i u
  exact hw

/-- `TX_SHIFT_DONE` alone writes the line (43_environment_timer.md R193). -/
theorem Change.wire_eq {p : Params} {i : Instr} {j : Inst} {u u' : Uart} (hc : Change p i u u')
    (hj : i.inst? = some j) (hi : i ≠ .txShiftDone j) : u'.wire = u.wire := by
  cases hc with
  | setpins | begin | ending | read | write | attach | detach | rxArrive | txLoad => rfl
  | bufStore | bufRead | bufClear => exact setBuf_wire _ _ _
  | dispatch => exact serviceBoth_wire _ _ _
  | txShiftDone => exact absurd (congrArg Instr.txShiftDone (Option.some.inj hj)) hi

/-! ### `CBLOG` -/

/-- Without a callback the ISR delivers no byte (42_dispatch.md R172). -/
theorem serviceBoth_delivers_none (p : Params) (i : Inst) {u : Uart}
    (h : u.ctl.cbAttached = false) : (serviceBoth p i u).2 = none := by
  obtain ⟨-, -, hs⟩ | ⟨-, -, hs⟩ | ⟨-, -, hs⟩ | ⟨-, -, hs⟩ := serviceBoth_cases p i u <;>
    simp [hs, receivePart_buffered p u h]

/-- The host's commands leave the callback log. -/
theorem command_cblog {i : Instr} {s t : State} (hp : i.port = .host) (h : exec i s = .next t) :
    t.cblog = s.cblog := by
  obtain ⟨c, -, rfl⟩ | ⟨v, s', rfl, -, -, hlog, -⟩ | ⟨-, rfl⟩ := command_cases hp h
  · rfl
  · exact hlog
  · rfl

/-- Everything a buffer operation does: one buffer is put back and the port answers. -/
theorem bufferOp_cases {i : Instr} {s t : State} (hp : i.port = .buffer)
    (h : exec i s = .next t) :
    ∃ (id : BufId) (u : Uart) (b : Buf) (w : BitVec 32), s.uart? id.inst = some u ∧
      t = bufAnswer (s.setUart id.inst (u.setBuf id.side b)) w := by
  cases i with
  | bufStore | bufRead | bufPeek | bufAvail | bufIsfull | bufClear =>
    simp only [exec, execBufStore, execBufRead, execBufPeek, execBufAvail, execBufIsfull,
      execBufClear] at h
    obtain ⟨u, hu, ht⟩ := onBuffer_cases h
    exact ⟨_, u, _, _, hu, ht⟩
  | setpins | beginUart | endUart | available | peek | read | flush | writecomplete | write | attach
  | detach | bool | dispatch | rxArrive | txLoad | txShiftDone | tick => nomatch hp

theorem bufferOp_cblog {i : Instr} {s t : State} (hp : i.port = .buffer)
    (h : exec i s = .next t) : t.cblog = s.cblog := by
  obtain ⟨_, _, _, _, -, rfl⟩ := bufferOp_cases hp h
  rfl

/-- What an operation does to the callback log: nothing, or, for a `DISPATCH` that runs, it appends the
byte that the ISR delivers. -/
theorem exec_cblog {i : Instr} {s t : State} (h : exec i s = .next t) :
    t.cblog = s.cblog ∨
      ∃ j u, i = .dispatch j ∧ s.uart? j = some u ∧
        t.cblog = s.cblog ++ ((serviceBoth s.params j u).2.map fun v => (j.toNat, v)).toList := by
  cases i with
  | setpins | beginUart | endUart | available | peek | read | flush | writecomplete | write | attach
  | detach | bool => exact .inl (command_cblog rfl h)
  | bufStore | bufRead | bufPeek | bufAvail | bufIsfull | bufClear =>
    exact .inl (bufferOp_cblog rfl h)
  | dispatch j =>
    obtain ⟨u, hu, ⟨-, rfl⟩ | ⟨-, rfl⟩⟩ := onEvent_cases h
    · exact .inr ⟨j, u, rfl, hu, rfl⟩
    · exact .inl rfl
  | rxArrive | txLoad | txShiftDone =>
    obtain ⟨u, -, ⟨-, rfl⟩ | ⟨-, rfl⟩⟩ := onEvent_cases h <;> exact .inl rfl
  | tick =>
    obtain rfl := Host.Outcome.next.inj h
    exact .inl rfl

/-- Settles O50: the line is written by the change of `TX_SHIFT_DONE` alone, and the callback log by
what the ISR delivers. -/
theorem logsHaveOneWriter : Obligations.LogsHaveOneWriter := by
  intro i s t j u u' h hu hu'
  refine ⟨fun hi => ?_, fun hi => ?_, fun hi hcb => ?_⟩
  · obtain rfl | ⟨hj, hc⟩ | ⟨-, rfl⟩ := exec_uart h hu hu'
    · rfl
    · exact hc.wire_eq hj hi
    · exact tickUart_wire _ _
  · obtain hlog | ⟨k, v, rfl, -⟩ := exec_cblog h
    · exact hlog
    · exact absurd rfl (hi k)
  · obtain hlog | ⟨k, v, hk, hv, hlog⟩ := exec_cblog h
    · exact hlog
    · obtain rfl := Instr.dispatch.inj (hi.symm.trans hk)
      obtain rfl := Option.some.inj (hu.symm.trans hv)
      simpa [serviceBoth_delivers_none _ _ hcb] using hlog

end Sys2Proof.Machine
end

section
/-! PROOFS. Bytes reach the line in the order they were written (20_memory.md R71(b)): each operation
moves at most one byte from a stage of the transmitter to the next, appends one at the end, or empties
every stage but the line. -/

namespace Sys2Proof.Machine

/-- A `WRITE` outside the guard window attempts the store and answers whether it was accepted
(41_controller.md R140). -/
theorem exec_write_stores {s : State} {j : Inst} {u : Uart} (hu : s.uart? j = some u)
    (ha : u.ctl.life = .active) (hg : guardActive s.params u = false) (v : Byte) :
    exec (.write j v) s =
      .next (respond (s.setUart j
        { u with
          per := { u.per with txIrqEn := true }
          txb := (store (slots s.params) u.txb v).1 })
        (bitValue (store (slots s.params) u.txb v).2)) := by
  refine (onCommand_present hu _).trans ?_
  simp [ha, hg]

/-! ### What each part of a change does to the bytes on their way -/

/-- With nothing in the registers and the buffer, the stream is what is on the line. -/
theorem txStream_eq_wire {p : Params} {j : Inst} {u : Uart} (hsh : u.per.shBusy = false)
    (hemp : u.per.txEmpty = true) (hb : contents ⟨j, .tx⟩ (slots p) u.txb = []) :
    txStream p j u = u.wire := by
  simp [txStream, hsh, hemp, hb]

@[simp] theorem receivePart_txStream (p : Params) (j : Inst) (u : Uart) :
    txStream p j (receivePart p u).1 = txStream p j u := by
  rw [receivePart_frame]
  rfl

theorem beginSequence_txStream {p : Params} (hp : p.wf) (u : Uart) (j : Inst) (m : Byte) (f : Frame)
    (baud : BitVec 32) : txStream p j (beginSequence p u m f baud) = u.wire := by
  rw [beginSequence_eq]
  exact txStream_eq_wire rfl rfl (contents_clear (two_le_slots hp) _)

theorem endSequence_txStream {p : Params} (hp : p.wf) (u : Uart) (j : Inst) :
    txStream p j (endSequence u) = u.wire := by
  rw [endSequence_eq]
  exact txStream_eq_wire rfl rfl (contents_clear (two_le_slots hp) _)

theorem txEmpty_of_txEv {u : Uart} (h : txEv u = true) : u.per.txEmpty = true :=
  (Bool.and_eq_true_iff.1 h).1

section Bounds
variable {p : Params} {u : Uart} (hp : p.wf) (h : uartWf p u)
include hp h

/-- The transmit engine runs with the transmit register empty, so the oldest queued byte keeps its place
(42_dispatch.md R173). -/
theorem transmitPart_txStream (hemp : u.per.txEmpty = true) (j : Inst) :
    txStream p j (transmitPart p j u) = txStream p j u := by
  obtain ⟨-, ⟨-, -, hw, hr, -⟩, -⟩ := h
  cases he : isEmpty u.txb with
  | true =>
    rw [transmitPart_empty p j u he]
    rfl
  | false =>
    rw [transmitPart_queued p j u he]
    simp [txStream, hemp, contents_read (two_le_slots hp) ⟨j, .tx⟩ hw hr he]

theorem serviceBoth_txStream (j : Inst) : txStream p j (serviceBoth p j u).1 = txStream p j u := by
  obtain ⟨-, ht, hs⟩ | ⟨-, -, hs⟩ | ⟨-, ht, hs⟩ | ⟨-, -, hs⟩ := serviceBoth_cases p j u <;> rw [hs]
  · have hemp : (receivePart p u).1.per.txEmpty = true := by
      rw [receivePart_frame]
      exact txEmpty_of_txEv ht
    rw [transmitPart_txStream hp (receivePart_uartWf h hp) hemp, receivePart_txStream]
  · exact receivePart_txStream p j u
  · exact transmitPart_txStream hp h (txEmpty_of_txEv ht) j

/-- What an operation other than the bench's does to the bytes of its instance on their way. -/
theorem Change.txStream_cases {i : Instr} {j : Inst} {u' : Uart} (hc : Change p i u u')
    (hj : i.inst? = some j) (hport : i.port ≠ .buffer) :
    txStream p j u' = txStream p j u ∨
      (∃ v, i = .write j v ∧ u.ctl.life = .active ∧ guardActive p u = false ∧
        isFull (slots p) u.txb = false ∧ txStream p j u' = txStream p j u ++ [v]) ∨
      (((∃ m baud, i = .beginUart j m baud) ∨ i = .endUart j) ∧
        txStream p j u' = u.wire ∧ u'.wire = u.wire) := by
  cases hc with
  | setpins | attach | detach | read | rxArrive => exact .inl rfl
  | bufStore | bufRead | bufClear => exact absurd rfl hport
  | begin k m baud _ f =>
    obtain rfl := Option.some.inj hj
    exact .inr (.inr ⟨.inl ⟨m, baud, rfl⟩, beginSequence_txStream hp u k m f baud, rfl⟩)
  | ending k =>
    obtain rfl := Option.some.inj hj
    exact .inr (.inr ⟨.inr rfl, endSequence_txStream hp u k, rfl⟩)
  | write k v _ ha hg =>
    obtain rfl := Option.some.inj hj
    obtain ⟨-, ⟨-, -, hw, hr, -⟩, -⟩ := h
    cases hf : isFull (slots p) u.txb with
    | true =>
      rw [store_full hf]
      exact .inl rfl
    | false =>
      refine .inr (.inl ⟨v, rfl, ha, hg, rfl, ?_⟩)
      simp [txStream, store_contents (two_le_slots hp) ⟨k, .tx⟩ hw hr hf v]
  | dispatch k =>
    obtain rfl := Option.some.inj hj
    exact .inl (serviceBoth_txStream hp h k)
  | txLoad _ _ he =>
    obtain ⟨-, hemp, hsh⟩ := txLoadEnabled_iff.1 he
    exact .inl (by simp [txStream, hemp, hsh])
  | txShiftDone _ _ he =>
    obtain ⟨-, hsh⟩ := txShiftDoneEnabled_iff.1 he
    exact .inl (by simp [txStream, hsh])

end Bounds

theorem tickUart_txStream (p q : Params) (j : Inst) (u : Uart) :
    txStream q j (tickUart p u) = txStream q j u := by
  rw [tickUart_frame]
  rfl

/-- Settles O56: each change keeps the bytes in order or is one of the two kinds named, and the store
that appends a byte is the one that its `WRITE` answers 1. -/
theorem transmitOrderIsWriteOrder : Obligations.TransmitOrderIsWriteOrder := by
  intro i s t j u u' hwf hport h hu hu'
  obtain ⟨⟨hp, -⟩, hall⟩ := hwf
  obtain rfl | ⟨hj, hc⟩ | ⟨-, rfl⟩ := exec_uart h hu hu'
  · exact .inl rfl
  · obtain hkept | ⟨v, rfl, ha, hg, hf, hs⟩ | hdiscard :=
      hc.txStream_cases hp (hall u (uart?_mem hu)) hj hport
    · exact .inl hkept
    · obtain rfl := Host.Outcome.next.inj ((exec_write_stores hu ha hg v).symm.trans h)
      exact .inr (.inl ⟨v, rfl, by simp [store_accepted, hf, bitValue], hs⟩)
    · exact .inr (.inr hdiscard)
  · exact .inl (tickUart_txStream _ _ _ _)

end Sys2Proof.Machine
end

section
/-! PROOFS. Each buffer index is advanced by one side only (10_state.md R26, 20_memory.md R69). -/

namespace Sys2Proof.Machine

@[simp] theorem store_r (n : Nat) (b : Buf) (v : Byte) : (store n b v).1.r = b.r := by
  cases h : isFull n b with
  | true => rw [store_full h]
  | false => rw [store_room h]

@[simp] theorem readByte_w (id : BufId) (n : Nat) (b : Buf) : (readByte id n b).1.w = b.w := by
  cases h : isEmpty b with
  | true => rw [readByte_empty id h]
  | false => rw [readByte_some id h]

/-- Of the host's commands only `BEGIN` and `END` write an index that the dispatcher owns: `READ` is a
read of `RXB`, and `WRITE` a store to `TXB`. -/
theorem Change.keeps_dispatcher_indices {p : Params} {i : Instr} {j : Inst} {u u' : Uart}
    (hc : Change p i u u') (hj : i.inst? = some j) (hport : i.port = .host)
    (hbegin : ∀ m baud, i ≠ .beginUart j m baud) (hend : i ≠ .endUart j) :
    u'.rxb.w = u.rxb.w ∧ u'.txb.r = u.txb.r := by
  cases hc with
  | setpins | attach | detach => exact ⟨rfl, rfl⟩
  | begin k m baud =>
    obtain rfl := Option.some.inj hj
    exact absurd rfl (hbegin m baud)
  | ending k =>
    obtain rfl := Option.some.inj hj
    exact absurd rfl hend
  | read => exact ⟨readByte_w _ _ _, rfl⟩
  | write => exact ⟨rfl, store_r _ _ _⟩
  | bufStore | bufRead | bufClear | dispatch | rxArrive | txLoad | txShiftDone => nomatch hport

/-- `DISPATCH` writes no index that the host owns. -/
theorem Change.dispatch_keeps_host_indices {p : Params} {j : Inst} {u u' : Uart}
    (hc : Change p (.dispatch j) u u') : u'.rxb.r = u.rxb.r ∧ u'.txb.w = u.txb.w := by
  cases hc with
  | dispatch =>
    obtain ⟨-, -, -, -, hrx, htx⟩ := serviceBoth_fields p j u
    exact ⟨hrx, htx⟩

/-- The environment's events leave both buffers. -/
theorem Change.environment_keeps_buffers {p : Params} {i : Instr} {j : Inst} {u u' : Uart}
    (hc : Change p i u u') (hj : i.inst? = some j) (hport : i.port = .event)
    (hi : i ≠ .dispatch j) : u'.rxb = u.rxb ∧ u'.txb = u.txb := by
  cases hc with
  | rxArrive | txLoad | txShiftDone => exact ⟨rfl, rfl⟩
  | dispatch k => exact absurd (congrArg Instr.dispatch (Option.some.inj hj)) hi
  | setpins | begin | ending | read | write | attach | detach | bufStore | bufRead | bufClear =>
    nomatch hport

/-- Settles O46: an operation that changes the instance does so by its rule's change, and a tick leaves
the buffers. -/
theorem indicesHaveOneOwner : Obligations.IndicesHaveOneOwner := by
  intro i s t j u u' h hu hu'
  obtain rfl | ⟨hj, hc⟩ | ⟨-, rfl⟩ := exec_uart h hu hu'
  · exact ⟨fun _ _ _ => ⟨rfl, rfl⟩, fun _ => ⟨rfl, rfl⟩, fun _ _ => ⟨rfl, rfl⟩⟩
  · refine ⟨hc.keeps_dispatcher_indices hj, ?_, hc.environment_keeps_buffers hj⟩
    rintro rfl
    exact hc.dispatch_keeps_host_indices
  · rw [tickUart_frame]
    exact ⟨fun _ _ _ => ⟨rfl, rfl⟩, fun _ => ⟨rfl, rfl⟩, fun _ _ => ⟨rfl, rfl⟩⟩

end Sys2Proof.Machine
end

section
/-! PROOFS. Received bytes are read in the order they were dispatched (20_memory.md R71(a)). -/

namespace Sys2Proof.Machine

/-- A `READ` takes a byte off `RXB` and answers it (41_controller.md R137). -/
theorem exec_read_present {s : State} {j : Inst} {u : Uart} (hu : s.uart? j = some u) :
    exec (.read j) s =
      .next (respond
        (s.setUart j { u with rxb := (readByte ⟨j, .rx⟩ (slots s.params) u.rxb).1 })
        (byteOrMinusOne (readByte ⟨j, .rx⟩ (slots s.params) u.rxb).2)) :=
  onCommand_present hu _

/-- The receive engine leaves `RXB`, or stores the received byte there (42_dispatch.md R172). -/
theorem receivePart_rxb_cases (p : Params) (u : Uart) :
    (receivePart p u).1.rxb = u.rxb ∨
      (u.ctl.cbAttached = false ∧ isFull (slots p) u.rxb = false ∧
        (receivePart p u).1.rxb = (store (slots p) u.rxb u.per.rxData).1) := by
  cases hcb : u.ctl.cbAttached with
  | true =>
    rw [receivePart_callback p u hcb]
    exact .inl rfl
  | false =>
    rw [receivePart_buffered p u hcb]
    cases hf : isFull (slots p) u.rxb with
    | true => exact .inl (congrArg Prod.fst (store_full hf _))
    | false => exact .inr ⟨rfl, rfl, rfl⟩

/-- Of one ISR entry only the receive engine writes `RXB` (R174). -/
theorem serviceBoth_rxb_cases (p : Params) (j : Inst) (u : Uart) :
    (serviceBoth p j u).1.rxb = u.rxb ∨
      (rxEv u = true ∧ u.ctl.cbAttached = false ∧ isFull (slots p) u.rxb = false ∧
        (serviceBoth p j u).1.rxb = (store (slots p) u.rxb u.per.rxData).1) := by
  obtain ⟨hr, -, hs⟩ | ⟨hr, -, hs⟩ | ⟨-, -, hs⟩ | ⟨-, -, hs⟩ := serviceBoth_cases p j u <;> rw [hs]
  · rw [transmitPart_rxb]
    exact (receivePart_rxb_cases p u).imp_right fun hstored => ⟨hr, hstored⟩
  · exact (receivePart_rxb_cases p u).imp_right fun hstored => ⟨hr, hstored⟩
  · exact .inl (transmitPart_rxb p j u)
  · exact .inl rfl

/-- What an operation other than the bench's does to the received bytes waiting at its instance. -/
theorem Change.received_cases {p : Params} {i : Instr} {j : Inst} {u u' : Uart}
    (hc : Change p i u u') (hp : p.wf) (h : uartWf p u) (hj : i.inst? = some j)
    (hport : i.port ≠ .buffer) :
    contents ⟨j, .rx⟩ (slots p) u'.rxb = contents ⟨j, .rx⟩ (slots p) u.rxb ∨
      (i = .read j ∧ isEmpty u.rxb = false ∧
        contents ⟨j, .rx⟩ (slots p) u.rxb =
          slotByte ⟨j, .rx⟩ u.rxb.mem u.rxb.r :: contents ⟨j, .rx⟩ (slots p) u'.rxb) ∨
      (i = .dispatch j ∧ rxEv u = true ∧ u.ctl.cbAttached = false ∧
        count (slots p) u.rxb < slots p - 1 ∧
        contents ⟨j, .rx⟩ (slots p) u'.rxb =
          contents ⟨j, .rx⟩ (slots p) u.rxb ++ [u.per.rxData]) ∨
      (((∃ m baud, i = .beginUart j m baud) ∨ i = .endUart j) ∧
        contents ⟨j, .rx⟩ (slots p) u'.rxb = []) := by
  have hn := two_le_slots hp
  obtain ⟨⟨-, -, hw, hr, -⟩, -⟩ := h
  cases hc with
  | setpins | attach | detach | write | rxArrive | txLoad | txShiftDone => exact .inl rfl
  | bufStore | bufRead | bufClear => exact absurd rfl hport
  | begin k m baud =>
    obtain rfl := Option.some.inj hj
    exact .inr (.inr (.inr ⟨.inl ⟨m, baud, rfl⟩, contents_clear hn _⟩))
  | ending k =>
    obtain rfl := Option.some.inj hj
    exact .inr (.inr (.inr ⟨.inr rfl, contents_clear hn _⟩))
  | read k =>
    obtain rfl := Option.some.inj hj
    cases he : isEmpty u.rxb with
    | true =>
      rw [readByte_empty _ he]
      exact .inl rfl
    | false => exact .inr (.inl ⟨rfl, rfl, contents_read hn _ hw hr he⟩)
  | dispatch k =>
    obtain rfl := Option.some.inj hj
    obtain hkept | ⟨hev, hcb, hf, hstored⟩ := serviceBoth_rxb_cases p k u
    · exact .inl (congrArg _ hkept)
    · refine .inr (.inr (.inl ⟨rfl, hev, hcb, (not_isFull_iff_count hw hr hn).1 hf, ?_⟩))
      rw [hstored, store_contents hn _ hw hr hf]

/-- Settles O57: each change keeps the bytes waiting or is one of the kinds named, and the byte that a
`READ` takes is the one it answers. -/
theorem receiveOrderIsArrivalOrder : Obligations.ReceiveOrderIsArrivalOrder := by
  intro i s t j u u' hwf hport h hu hu'
  obtain ⟨⟨hp, -⟩, hall⟩ := hwf
  obtain rfl | ⟨hj, hc⟩ | ⟨-, rfl⟩ := exec_uart h hu hu'
  · exact .inl rfl
  · obtain hkept | ⟨rfl, he, hread⟩ | hother :=
      hc.received_cases hp (hall u (uart?_mem hu)) hj hport
    · exact .inl hkept
    · obtain rfl := Host.Outcome.next.inj ((exec_read_present hu).symm.trans h)
      exact .inr (.inl ⟨_, rfl, by simp [readByte_some _ he, byteOrMinusOne], hread⟩)
    · exact .inr (.inr hother)
  · exact .inl (congrArg (contents _ _) (tickUart_buf _ _ .rx))

end Sys2Proof.Machine
end

section
/-! PROOFS. A bench operation on a buffer that does not exist faults (20_memory.md R60, R61). -/

namespace Sys2Proof.Machine

theorem onBuffer_absent {s : State} {id : BufId} (h : s.uart? id.inst = none)
    (run : Buf → Buf × BitVec 32) : onBuffer id s run = .fault (.noSuchBuffer id) := by
  simp [onBuffer, h]

/-- Settles O34: each of the six operations is an `onBuffer` of its buffer. -/
theorem absentBufferFaults : Obligations.AbsentBufferFaults := by
  intro i s j hport hj habs
  have hnone : s.uart? j = none := uart?_eq_none_iff.2 habs
  cases i with
  | bufStore id | bufRead id | bufPeek id | bufAvail id | bufIsfull id | bufClear id =>
    obtain rfl := Option.some.inj hj
    refine ⟨id, rfl, ?_⟩
    simp only [exec, execBufStore, execBufRead, execBufPeek, execBufAvail, execBufIsfull,
      execBufClear, onBuffer_absent hnone]
  | setpins | beginUart | endUart | available | peek | read | flush | writecomplete | write | attach
  | detach | bool | dispatch | rxArrive | txLoad | txShiftDone | tick => nomatch hport

end Sys2Proof.Machine
end

section
/-! PROOFS. Every word of every port decodes as the code tables say, and the canonical word of an
operation decodes to it (30_encoding.md R81 to R98). -/

namespace Sys2Proof

/-! ### The words with no operation of their own -/

/-- R92. -/
theorem decodeCmd_reserved {w : CmdWord} (h : w.extractLsb' 0 4 ∈ [0x0#4, 0xD#4, 0xE#4, 0xF#4]) :
    decodeCmd w = .reservedOp := by
  simp only [List.mem_cons, List.not_mem_nil, or_false] at h
  obtain h | h | h | h := h <;> simp [decodeCmd, h]

/-- R94. -/
theorem decodeBuf_reserved {w : BufWord} (b : BufId) (h : w.extractLsb' 0 3 ∈ [6#3, 7#3]) :
    decodeBuf b w = .reservedBop := by
  simp only [List.mem_cons, List.not_mem_nil, or_false] at h
  obtain h | h := h <;> simp [decodeBuf, h]

theorem eventOn_present {n : Nat} {inst : Inst} (h : inst.toNat < n) (i : Instr) :
    eventOn n inst i = .op i := if_pos h

theorem eventOn_absent {n : Nat} {inst : Inst} (h : n ≤ inst.toNat) (i : Instr) :
    eventOn n inst i = .absentInstance inst := if_neg (Nat.not_lt.2 h)

/-- R93: a reserved code is refused whatever `INST` holds. -/
theorem decodeEvt_reserved {w : EvtWord} (n : Nat)
    (h : w.extractLsb' 0 4 ∉ [0x1#4, 0x2#4, 0x3#4, 0x4#4, 0x5#4]) :
    decodeEvt n w = .reservedEvent (w.extractLsb' 0 4) := by
  unfold decodeEvt
  dsimp only
  split
  case h_6 => rfl
  all_goals next hec => simp [hec] at h

/-- R93: every event but `TICK` needs an instance that is there. -/
theorem decodeEvt_absent {n : Nat} {w : EvtWord}
    (h : w.extractLsb' 0 4 ∈ [0x1#4, 0x2#4, 0x3#4, 0x4#4]) (hn : n ≤ (w.extractLsb' 4 4).toNat) :
    decodeEvt n w = .absentInstance (w.extractLsb' 4 4) := by
  simp only [List.mem_cons, List.not_mem_nil, or_false] at h
  obtain h | h | h | h := h <;> simp only [decodeEvt, h, eventOn_absent hn]

/-! ### The statements -/

/-- Settles O2: each code is one branch of its port's decoder. -/
theorem decodingFollowsTheTables : Obligations.DecodingFollowsTheTables := by
  refine ⟨fun n w => ?_, fun n b w => ?_, fun n w => ?_⟩
  · refine ⟨decodeCmd_reserved, ?_, ?_, ?_, ?_, ?_, ?_, ?_, ?_, ?_, ?_, ?_, ?_⟩ <;>
      intro h <;> simp only [decode, decodeCmd, h]
  · refine ⟨?_, ?_, ?_, ?_, ?_, ?_, decodeBuf_reserved b⟩ <;>
      intro h <;> simp only [decode, decodeBuf, h]
  · refine ⟨decodeEvt_reserved n, ?_, decodeEvt_absent, ?_, ?_, ?_, ?_⟩
    · intro h
      simp only [decode, decodeEvt, h]
    all_goals
      intro h hn
      simp only [decode, decodeEvt, h, eventOn_present hn]

/-- Settles O1: each field of a canonical word reads back, and the code field then selects the
operation. An event needs its instance to be there. -/
theorem decodeEncodeRoundTrip : Obligations.DecodeEncodeRoundTrip := by
  intro n i hwf
  cases i with
  | setpins | beginUart | endUart | available | peek | read | flush | writecomplete | write | attach
  | detach | bool =>
    simp only [encode, decode, decodeCmd, cmdWord_op, cmdWord_inst, cmdWord_b8, cmdWord_txp,
      cmdWord_rxp, cmdWord_baud, BitVec.ofNat_eq_ofNat]
  | bufStore | bufRead | bufPeek | bufAvail | bufIsfull | bufClear =>
    simp only [encode, decode, decodeBuf, bufWord_bop, bufWord_din, BitVec.ofNat_eq_ofNat]
  | dispatch | rxArrive | txLoad | txShiftDone =>
    have hn := of_decide_eq_true hwf
    simp only [encode, decode, decodeEvt, evtWord_ec, evtWord_inst, evtWord_byte, evtWord_keep,
      eventOn_present hn, BitVec.ofNat_eq_ofNat]
  | tick => simp only [encode, decode, decodeEvt, evtWord_ec, BitVec.ofNat_eq_ofNat]

/-- Settles O3: the code and the instance are the same, so both words reach the same branch, and the
branches of `SETPINS`, `BEGIN` and `WRITE` alone read another field. -/
theorem unusedCommandFieldsIgnored : Obligations.UnusedCommandFieldsIgnored := by
  intro n v w hop hinst hb8 hpins hbaud
  simp only [decode, decodeCmd, hop, hinst]
  split
  case h_1 h =>
    obtain ⟨htxp, hrxp⟩ := hpins h
    rw [htxp, hrxp]
  case h_2 h => rw [hb8 (by simp [h]), hbaud h]
  case h_9 h => rw [hb8 (by simp [h])]
  all_goals rfl

/-- Settles O4: the words are closed, and the decoder evaluates on them. -/
theorem specWordsDecode : Obligations.SpecWordsDecode := by
  unfold Obligations.SpecWordsDecode
  decide

/-- Settles O5: the ten rows evaluate, and a byte outside the list fails `MODE_OK`. -/
theorem modeByteTable : Obligations.ModeByteTable := by
  refine ⟨rfl, rfl, rfl, rfl, rfl, rfl, rfl, rfl, rfl, rfl, fun m hm => ?_, rfl⟩
  exact Machine.decodeMode_not_ok (by simpa [Machine.modeOk, Machine.modeBytes] using hm)

end Sys2Proof
end

section
/-! PROOFS. A step runs the operation that its turn asks for, answers a reserved code and refuses an
input that is outside the model (30_encoding.md R92 to R94, R98). -/

namespace Sys2Proof.Machine

/-! ### The step, for each thing a turn can ask -/

section Step
variable {s : State} {turn : Turn} {rest : List Turn} (hts : s.turns = turn :: rest)
include hts

theorem step_of_asked_op {i : Instr} (h : asked turn { s with turns := rest } = .op i) :
    step s = exec i { s with turns := rest } := by
  simp only [step, hts, h]

theorem step_of_asked_reservedOp (h : asked turn { s with turns := rest } = .reservedOp) :
    step s = .next (raiseErr { s with turns := rest } eReservedOp) := by
  simp only [step, hts, h]

theorem step_of_asked_reservedBop (h : asked turn { s with turns := rest } = .reservedBop) :
    step s = .next (bufAnswer { s with turns := rest } reservedBufResp) := by
  simp only [step, hts, h]

theorem step_of_asked_outside {why : Refusal}
    (h : asked turn { s with turns := rest } = .outside why) : step s = .refused why := by
  simp only [step, hts, h]

end Step

/-- The host's turn asks for the command pending at its port. -/
theorem asked_host {s : State} {w : CmdWord} {ws : List CmdWord} (h : s.hostCmds = w :: ws) :
    asked .host s = askedOf (decode s.numUart (.cmd w)) := by
  simp only [asked, h]

/-- A vector's turn asks for the `DISPATCH` of the instance it maps to (42_dispatch.md R170). -/
theorem asked_vector {s : State} {v : Nat} {j : Inst} (h : route s v = some j) :
    asked (.vector v) s = .op (.dispatch j) := by
  simp only [asked, h]

/-! ### The statements -/

/-- Settles O6: each kind of turn asks for the operation its word decodes to, a vector for a
`DISPATCH`. -/
theorem stepRunsDecodedOperation : Obligations.StepRunsDecodedOperation := by
  intro s rest i
  refine ⟨fun w ws hts hcs hd => ?_, fun w hts hd => ?_, fun b w hts hd => ?_,
    fun v j hts hr => ?_⟩
  · exact step_of_asked_op hts ((asked_host hcs).trans (congrArg askedOf hd))
  · exact step_of_asked_op hts (congrArg askedOf hd)
  · exact step_of_asked_op hts (congrArg askedOf hd)
  · exact step_of_asked_op hts (asked_vector hr)

/-- R92. -/
theorem step_reservedOp {s : State} {rest : List Turn} {w : CmdWord} {ws : List CmdWord}
    (hts : s.turns = .host :: rest) (hcs : s.hostCmds = w :: ws)
    (hop : w.extractLsb' 0 4 ∈ [0x0#4, 0xD#4, 0xE#4, 0xF#4]) :
    step s = .next (raiseErr { s with turns := rest } eReservedOp) :=
  step_of_asked_reservedOp hts
    ((asked_host hcs).trans (congrArg askedOf (decodeCmd_reserved hop)))

/-- Settles O7: the word decodes to a reserved code of its port, and the answer joins that port's
stream. -/
theorem reservedCodesAnswered : Obligations.ReservedCodesAnswered := by
  refine ⟨fun s rest w ws hts hcs hop => ?_, fun s rest b w hts hbop => ?_⟩
  · exact ⟨_, step_reservedOp hts hcs hop, ⟨rfl, rfl, rfl, rfl, rfl⟩, by simp [hcs], rfl⟩
  · have hask := congrArg askedOf (decodeBuf_reserved b hbop)
    exact ⟨_, step_of_asked_reservedBop hts hask, ⟨rfl, rfl, rfl, rfl, rfl⟩, rfl, rfl⟩

/-- Settles O8: the two refusals of the event port's decoder are outside the model. -/
theorem reservedEventRefused : Obligations.ReservedEventRefused := by
  intro s rest w hts
  refine ⟨fun hec => ?_, fun hec hn => ?_⟩
  · exact step_of_asked_outside hts (congrArg askedOf (decodeEvt_reserved s.numUart hec))
  · exact step_of_asked_outside hts (congrArg askedOf (decodeEvt_absent hec hn))

end Sys2Proof.Machine
end

section
/-! PROOFS. Every host command is answered, unless it is a `FLUSH` that holds, and on an absent
instance the answer is `E_BAD_INSTANCE` (30_encoding.md R86, 41_controller.md R130). -/

namespace Sys2Proof

/-- The codes of the twelve commands and the reserved ones are all there are (R83, R92). -/
theorem command_code_of_not_reserved : ∀ op : BitVec 4, op ∉ [0x0#4, 0xD#4, 0xE#4, 0xF#4] →
    op ∈ [0x1#4, 0x2#4, 0x3#4, 0x4#4, 0x5#4, 0x6#4, 0x7#4, 0x8#4, 0x9#4, 0xA#4, 0xB#4, 0xC#4] := by
  decide

/-- `INST` of a command word is the instance of its operation, where its `OP` is not reserved. -/
theorem decodeCmd_inst {w : CmdWord} (h : w.extractLsb' 0 4 ∉ [0x0#4, 0xD#4, 0xE#4, 0xF#4]) :
    ∃ i, decodeCmd w = .op i ∧ i.inst? = some (w.extractLsb' 4 4) := by
  have hop := command_code_of_not_reserved _ h
  unfold decodeCmd
  dsimp only
  split
  case h_13 => simp_all -- none of the twelve codes reaches the last branch
  all_goals exact ⟨_, rfl, rfl⟩

end Sys2Proof

namespace Sys2Proof.Machine

/-- The common check leaves every host command a next state. -/
theorem onCommand_next (i : Inst) (s : State) (run : Uart → State) :
    ∃ t, onCommand i s run = .next t := by
  cases hu : s.uart? i with
  | none => exact ⟨_, onCommand_absent hu run⟩
  | some u => exact ⟨_, onCommand_present hu run⟩

/-- No host command faults or is refused. -/
theorem exec_command_next {i : Instr} (hport : i.port = .host) (s : State) :
    ∃ t, exec i s = .next t := by
  cases i with
  | setpins | beginUart | endUart | available | peek | read | flush | writecomplete | write | attach
  | detach | bool => exact onCommand_next _ s _
  | bufStore | bufRead | bufPeek | bufAvail | bufIsfull | bufClear | dispatch | rxArrive | txLoad
  | txShiftDone | tick => nomatch hport

/-- Every host command starts with the common check. -/
theorem exec_command_absent {i : Instr} {s : State} {j : Inst} (hport : i.port = .host)
    (hj : i.inst? = some j) (hu : s.uart? j = none) :
    exec i s = .next (raiseErr s eBadInstance) := by
  cases i with
  | setpins | beginUart | endUart | available | peek | read | flush | writecomplete | write | attach
  | detach | bool =>
    obtain rfl := Option.some.inj hj
    exact onCommand_absent hu _
  | bufStore | bufRead | bufPeek | bufAvail | bufIsfull | bufClear | dispatch | rxArrive | txLoad
  | txShiftDone | tick => nomatch hport

theorem errored_raiseErr (s : State) (code : BitVec 4) : Errored s (raiseErr s code) code :=
  ⟨rfl, rfl, rfl, rfl, rfl, rfl, rfl⟩

/-- Settles O10: a command's own instance is the one the common check looks up; a reserved `OP` is
answered before any operation runs. -/
theorem absentInstanceAnswered : Obligations.AbsentInstanceAnswered := by
  refine ⟨fun i s j hport hj hn => ?_, fun s rest w ws hts hcs hn => ?_⟩
  · exact ⟨_, exec_command_absent hport hj (uart?_eq_none_iff.2 hn), errored_raiseErr s _⟩
  · split
    · next hop => exact ⟨_, step_reservedOp hts hcs hop, errored_raiseErr _ _⟩
    · next hop =>
      obtain ⟨i, hd, hi⟩ := decodeCmd_inst hop
      have hask := (asked_host (s := { s with turns := rest }) hcs).trans (congrArg askedOf hd)
      have habs := exec_command_absent (s := { s with turns := rest }) (decodeCmd_port hd) hi
        (uart?_eq_none_iff.2 hn)
      exact ⟨_, (step_of_asked_op hts hask).trans habs, errored_raiseErr _ _⟩

/-- Settles O12: a command has a next state, which is an error response, a response, or a `FLUSH`
that holds. -/
theorem everyCommandAnsweredOnce : Obligations.EveryCommandAnsweredOnce := by
  intro i s hport
  obtain ⟨t, ht⟩ := exec_command_next hport s
  refine ⟨t, ht, ?_⟩
  obtain ⟨c, -, rfl⟩ | ⟨v, s', rfl, hresps, hcmds, -, -⟩ | ⟨hflush, rfl⟩ := command_cases hport ht
  · exact .inl ⟨_, rfl, rfl, rfl⟩
  · exact .inl ⟨⟨0, v⟩, by simp [hresps], by simp [hcmds], rfl⟩
  · exact .inr ⟨hflush, ⟨rfl, rfl, rfl, rfl, rfl⟩, rfl, rfl⟩

end Sys2Proof.Machine
end

section
/-! PROOFS. Index arithmetic modulo `N = 2^IW` is masking by `N - 1`, in every width of the
subtraction that R118 admits (40_buffer.md R118). -/

namespace Sys2Proof.Machine

/-- In `IW`-bit two's complement the difference needs no mask. -/
theorem subN_two_pow (iw a b : Nat) :
    subN (2 ^ iw) a b = (BitVec.ofNat iw a - BitVec.ofNat iw b).toNat := by
  rw [BitVec.toNat_sub, BitVec.toNat_ofNat, BitVec.toNat_ofNat, Nat.add_mod_mod, Nat.add_comm]
  rfl

/-- A wider difference keeps the `IW`-bit one in its low bits. -/
theorem subN_two_pow_wide {iw width : Nat} (h : iw ≤ width) (a b : Nat) :
    subN (2 ^ iw) a b = (BitVec.ofNat width a - BitVec.ofNat width b).toNat &&& (2 ^ iw - 1) := by
  have hsub : (BitVec.ofNat width a - BitVec.ofNat width b).setWidth iw =
      BitVec.ofNat iw a - BitVec.ofNat iw b := by
    rw [BitVec.sub_eq_add_neg, BitVec.setWidth_add _ _ h, BitVec.setWidth_neg_of_le h,
      BitVec.setWidth_ofNat_of_le h, BitVec.setWidth_ofNat_of_le h, ← BitVec.sub_eq_add_neg]
  rw [Nat.and_two_pow_sub_one_eq_mod, ← BitVec.toNat_setWidth, hsub, subN_two_pow]

/-- Settles O31: masking by `N - 1` is the remainder modulo `N`, which cutting a word to `IW` bits
takes too. -/
theorem indexArithmeticIsMasking : Obligations.IndexArithmeticIsMasking := by
  intro iw a b _ _ hb
  refine ⟨?_, ?_, fun width hw => subN_two_pow_wide (by omega) a b, subN_two_pow iw a b⟩
  · rw [Nat.and_two_pow_sub_one_eq_mod]
    rfl
  · rw [Nat.and_two_pow_sub_one_eq_mod, Nat.add_sub_assoc hb.le, subN, Nat.mod_eq_of_lt hb]

end Sys2Proof.Machine
end

section
/-! PROOFS. Runs of buffer operations: a buffer never holds more than `N - 1` bytes, and it returns
the bytes it accepted in order (40_buffer.md R111, R119). -/

namespace Sys2Proof.Machine

/-! ### One recorded operation -/

section Next
variable {n : Nat} {x : BufRun}

theorem next_store_full (id : BufId) (h : isFull n x.buf = true) (v : Byte) :
    x.next id n (.store v) = x := by
  simp [BufRun.next, store_full h]

theorem next_store_room (id : BufId) (h : isFull n x.buf = false) (v : Byte) :
    x.next id n (.store v) =
      { x with buf := (store n x.buf v).1, accepted := x.accepted ++ [v] } := by
  simp [BufRun.next, store_accepted, h]

theorem next_read_empty (id : BufId) (h : isEmpty x.buf = true) : x.next id n .read = x := by
  simp [BufRun.next, readByte_empty id h]

theorem next_read_some (id : BufId) (h : isEmpty x.buf = false) :
    x.next id n .read =
      { x with
        buf := (readByte id n x.buf).1
        returned := x.returned ++ [slotByte id x.buf.mem x.buf.r] } := by
  simp [BufRun.next, readByte_some id h]

/-- Every operation of a buffer keeps it well formed. -/
theorem next_bufWf (hn : 2 ≤ n) (id : BufId) (h : bufWf n x.buf) (op : BufOp) :
    bufWf n (x.next id n op).buf := by
  cases op with
  | store v => exact store_bufWf hn h v
  | read => exact readByte_bufWf hn id h
  | peek | avail | isfull => exact h
  | clear => exact clear_bufWf hn h

/-- Every operation keeps the account of a buffer: what was accepted is what was returned followed
by what is queued. -/
theorem next_accepted (hn : 2 ≤ n) (id : BufId) (hwf : bufWf n x.buf)
    (h : x.accepted = x.returned ++ contents id n x.buf) (op : BufOp) :
    (x.next id n op).accepted =
      (x.next id n op).returned ++ contents id n (x.next id n op).buf := by
  obtain ⟨-, -, hw, hr, -⟩ := hwf
  cases op with
  | store v =>
    cases hf : isFull n x.buf with
    | true => rwa [next_store_full id hf]
    | false =>
      rw [next_store_room id hf]
      simp only [store_contents hn id hw hr hf, h, List.append_assoc]
  | read =>
    cases he : isEmpty x.buf with
    | true => rwa [next_read_empty id he]
    | false =>
      rw [next_read_some id he]
      simp [h, contents_read hn id hw hr he]
  | peek | avail | isfull => exact h
  | clear => exact (contents_clear hn id).symm

end Next

/-! ### Runs -/

section Runs
variable {n : Nat} {b : Buf}

@[simp] theorem runBuf_nil (id : BufId) (n : Nat) (b : Buf) : runBuf id n b [] = ⟨b, [], []⟩ := rfl

theorem runBuf_concat (id : BufId) (n : Nat) (b : Buf) (ops : List BufOp) (op : BufOp) :
    runBuf id n b (ops ++ [op]) = (runBuf id n b ops).next id n op := by
  simp [runBuf]

variable (hn : 2 ≤ n) (id : BufId) (hwf : bufWf n b)
include hn hwf

theorem runBuf_bufWf (ops : List BufOp) : bufWf n (runBuf id n b ops).buf := by
  induction ops using List.reverseRecOn with
  | nil => exact hwf
  | append_singleton ops op ih =>
    rw [runBuf_concat]
    exact next_bufWf hn id ih op

theorem runBuf_accepted (he : isEmpty b = true) (ops : List BufOp) :
    (runBuf id n b ops).accepted =
      (runBuf id n b ops).returned ++ contents id n (runBuf id n b ops).buf := by
  induction ops using List.reverseRecOn with
  | nil =>
    obtain ⟨-, -, hw, hr, -⟩ := hwf
    simp [contents_empty id hw hr he]
  | append_singleton ops op ih =>
    rw [runBuf_concat]
    exact next_accepted hn id (runBuf_bufWf hn id hwf ops) ih op

/-- Up to `N - 1` stores into an empty buffer are all accepted and stay queued. -/
theorem runBuf_stores (he : isEmpty b = true) {vs : List Byte} (hlen : vs.length ≤ n - 1) :
    (runBuf id n b (vs.map .store)).accepted = vs ∧
      count n (runBuf id n b (vs.map .store)).buf = vs.length := by
  induction vs using List.reverseRecOn with
  | nil =>
    obtain ⟨-, -, hw, hr, -⟩ := hwf
    exact ⟨rfl, (isEmpty_iff_count hw hr).1 he⟩
  | append_singleton vs v ih =>
    rw [List.length_append, List.length_singleton] at hlen
    obtain ⟨hacc, hcount⟩ := ih (by omega)
    obtain ⟨-, -, hw, hr, -⟩ := runBuf_bufWf hn id hwf (vs.map .store)
    have hroom := (not_isFull_iff_count hw hr hn).2 (by omega)
    rw [List.map_append, List.map_singleton, runBuf_concat, next_store_room id hroom]
    simp [hacc, store_count hn hw hr hroom, hcount]

end Runs

/-! ### The statements -/

/-- Settles O32: the count of a well-formed buffer is below `N`, and after `N - 1` accepted stores it is
full. -/
theorem bufferHoldsAtMostNMinusOne : Obligations.BufferHoldsAtMostNMinusOne := by
  intro id n b hn hwf
  constructor
  · intro ops
    obtain ⟨-, -, hw, hr, -⟩ := runBuf_bufWf hn id hwf ops
    exact Nat.le_sub_one_of_lt (count_lt hw hr)
  · intro he vs v hlen
    obtain ⟨hacc, hcount⟩ := runBuf_stores hn id hwf he hlen.le
    obtain ⟨-, -, hw, hr, -⟩ := runBuf_bufWf hn id hwf (vs.map .store)
    have hfull := (isFull_iff_count hw hr hn).2 (hcount.trans hlen)
    exact ⟨hacc, hfull, (runBuf_concat ..).trans (next_store_full id hfull v)⟩

/-- Settles O33: the bytes returned come first in the account that every operation keeps. -/
theorem bufferIsFirstInFirstOut : Obligations.BufferIsFirstInFirstOut := by
  intro id n b ops hn hwf he
  have h := runBuf_accepted hn id hwf he ops
  exact ⟨⟨_, h.symm⟩, h⟩

end Sys2Proof.Machine
end

section
/-! PROOFS. The six operations of the buffer port: what each answers and how it leaves its buffer
(40_buffer.md R112 to R117). -/

namespace Sys2Proof.Machine

/-! ### The tests of a buffer, on its indices -/

section Tests
variable {n : Nat} {b : Buf}

theorem isFull_iff : isFull n b = true ↔ (b.w + 1) % n = b.r := beq_iff_eq

theorem isFull_eq_false_iff : isFull n b = false ↔ (b.w + 1) % n ≠ b.r := beq_eq_false_iff_ne

theorem isEmpty_iff : isEmpty b = true ↔ b.w = b.r := beq_iff_eq

theorem isEmpty_eq_false_iff : isEmpty b = false ↔ b.w ≠ b.r := beq_eq_false_iff_ne

theorem peekByte_empty (id : BufId) (h : isEmpty b = true) : peekByte id b = none := by
  simp [peekByte, h]

theorem peekByte_some (id : BufId) (h : isEmpty b = false) :
    peekByte id b = some (slotByte id b.mem b.r) := by
  simp [peekByte, h]

end Tests

/-! ### What each operation leaves -/

/-- The buffer that a bench operation left is the one its addresses read. -/
theorem BenchedWith.byteAt?_eq {s t : State} {id : BufId} {u : Uart} {b : Buf} {w : BitVec 32}
    (h : BenchedWith s t id u b w) (k : Nat) : t.byteAt? id k = some (slotByte id b.mem k) := by
  obtain ⟨⟨-, -, hu, -, -⟩, -⟩ := h
  rw [byteAt?_of_uart? hu, buf_setBuf]

section Operations
variable {s : State} {id : BufId} {u : Uart} (hu : s.uart? id.inst = some u)
include hu

/-- A bench operation on a buffer that exists answers, and of the core only that buffer changes. -/
theorem onBuffer_benchedWith (run : Buf → Buf × BitVec 32) :
    ∃ t, onBuffer id s run = .next t ∧
      BenchedWith s t id u (run (u.buf id.side)).1 (run (u.buf id.side)).2 := by
  refine ⟨_, onBuffer_present hu run, ?_⟩
  refine ⟨⟨rfl, setUart_numUart .., setUart_uart?_self hu, ?_, rfl⟩, rfl, rfl, rfl, rfl, rfl⟩
  intro j hj
  exact List.getElem?_set_ne hj.symm

theorem exec_bufStore (v : Byte) :
    ∃ t, exec (.bufStore id v) s = .next t ∧
      BenchedWith s t id u (store (slots s.params) (u.buf id.side) v).1
        (bitValue (store (slots s.params) (u.buf id.side) v).2) :=
  onBuffer_benchedWith hu fun b =>
    ((store (slots s.params) b v).1, bitValue (store (slots s.params) b v).2)

theorem exec_bufRead :
    ∃ t, exec (.bufRead id) s = .next t ∧
      BenchedWith s t id u (readByte id (slots s.params) (u.buf id.side)).1
        (byteResp (readByte id (slots s.params) (u.buf id.side)).2) :=
  onBuffer_benchedWith hu fun b =>
    ((readByte id (slots s.params) b).1, byteResp (readByte id (slots s.params) b).2)

theorem exec_bufPeek :
    ∃ t, exec (.bufPeek id) s = .next t ∧
      BenchedWith s t id u (u.buf id.side) (byteResp (peekByte id (u.buf id.side))) :=
  onBuffer_benchedWith hu fun b => (b, byteResp (peekByte id b))

theorem exec_bufAvail :
    ∃ t, exec (.bufAvail id) s = .next t ∧
      BenchedWith s t id u (u.buf id.side)
        (BitVec.ofNat 32 (count (slots s.params) (u.buf id.side))) :=
  onBuffer_benchedWith hu fun b => (b, BitVec.ofNat 32 (count (slots s.params) b))

theorem exec_bufIsfull :
    ∃ t, exec (.bufIsfull id) s = .next t ∧
      BenchedWith s t id u (u.buf id.side)
        (bitValue (isFull (slots s.params) (u.buf id.side))) :=
  onBuffer_benchedWith hu fun b => (b, bitValue (isFull (slots s.params) b))

theorem exec_bufClear :
    ∃ t, exec (.bufClear id) s = .next t ∧ BenchedWith s t id u (clear (u.buf id.side)) 0 :=
  onBuffer_benchedWith hu fun b => (clear b, 0)

end Operations

/-! ### The statements -/

/-- Settles O26: an accepted store writes the one slot that `onlyStoresWriteStorage` excepts. -/
theorem bufStoreAppendsOrDrops : Obligations.BufStoreAppendsOrDrops := by
  intro s id u v hu
  obtain ⟨t, hexec, ht⟩ := exec_bufStore hu v
  constructor
  · intro hroom
    rw [store_room (isFull_eq_false_iff.2 hroom)] at ht
    refine ⟨t, _, hexec, ht, ?_, ?_⟩
    · rw [ht.byteAt?_eq, slotByte, put_byteAt?_self, Option.getD_some]
    · intro id' k hk
      refine onlyStoresWriteStorage _ s t hexec id' k ?_
      simpa [storeAddress, hu] using hk.symm
  · intro hfull
    rw [store_full (isFull_iff.2 hfull)] at ht
    exact ⟨t, hexec, ht⟩

/-- Settles O27: `readByte` on an empty and on a non-empty buffer. -/
theorem bufReadRemovesOldest : Obligations.BufReadRemovesOldest := by
  intro s id u hu
  obtain ⟨t, hexec, ht⟩ := exec_bufRead hu
  constructor
  · intro hempty
    rw [readByte_empty id (isEmpty_iff.2 hempty)] at ht
    exact ⟨t, hexec, ht⟩
  · intro hqueued
    rw [readByte_some id (isEmpty_eq_false_iff.2 hqueued)] at ht
    exact ⟨t, hexec, ht⟩

/-- Settles O28: `peekByte` on an empty and on a non-empty buffer. -/
theorem bufPeekAnswersOldest : Obligations.BufPeekAnswersOldest := by
  intro s id u hu
  obtain ⟨t, hexec, ht⟩ := exec_bufPeek hu
  constructor
  · intro hempty
    rw [peekByte_empty id (isEmpty_iff.2 hempty)] at ht
    exact ⟨t, hexec, ht⟩
  · intro hqueued
    rw [peekByte_some id (isEmpty_eq_false_iff.2 hqueued)] at ht
    exact ⟨t, hexec, ht⟩

/-- Settles O29: the count of a well-formed buffer is below `N`, at most 65536, so that the 32 bits of
the answer hold it. -/
theorem bufAvailAndIsfullReport : Obligations.BufAvailAndIsfullReport := by
  intro s id u hwf hu
  constructor
  · obtain ⟨t, hexec, ht⟩ := exec_bufAvail hu
    obtain ⟨⟨hp, -⟩, huarts⟩ := hwf
    obtain ⟨-, -, hw, hr, -⟩ := uartWf_buf (huarts u (uart?_mem hu)) id.side
    have hlt := count_lt hw hr
    have hslots := slots_le hp
    refine ⟨t, _, hexec, ht, ?_⟩
    rw [BitVec.toNat_ofNat, Nat.mod_eq_of_lt (by omega), count_eq hw hr]
  · obtain ⟨t, hexec, ht⟩ := exec_bufIsfull hu
    refine ⟨t, hexec, ?_⟩
    simpa only [bitValue, isFull_iff] using ht

/-- Settles O30: `clear` sets both indices and leaves the storage. -/
theorem bufClearResetsIndices : Obligations.BufClearResetsIndices :=
  fun _ _ _ hu => exec_bufClear hu

end Sys2Proof.Machine
end

section
/-! PROOFS. What each host command answers on an instance that is there, and how it leaves that
instance (41_controller.md R131 to R143). -/

namespace Sys2Proof.Machine

/-! ### A command that responds -/

section Responses
variable {s : State} {j : Inst} {u : Uart} (hu : s.uart? j = some u)
include hu

theorem onlyUart_setUart (u' : Uart) : OnlyUart s (s.setUart j u') j u' :=
  ⟨rfl, setUart_numUart .., setUart_uart?_self hu, fun _ hk => List.getElem?_set_ne hk.symm, rfl⟩

theorem answeredWith_respond_setUart (u' : Uart) (v : BitVec 32) :
    AnsweredWith s (respond (s.setUart j u') v) j u' ⟨0, v⟩ :=
  ⟨onlyUart_setUart hu u', rfl, rfl, rfl, rfl, rfl⟩

/-- A command that writes its instance. -/
theorem onCommand_answers {run : Uart → State} {u' : Uart} {v : BitVec 32}
    (hrun : run u = respond (s.setUart j u') v) :
    ∃ t, onCommand j s run = .next t ∧ AnsweredWith s t j u' ⟨0, v⟩ :=
  ⟨_, (onCommand_present hu run).trans (congrArg _ hrun), answeredWith_respond_setUart hu u' v⟩

/-- A command that writes nothing of its instance. -/
theorem onCommand_reports {run : Uart → State} {v : BitVec 32} (hrun : run u = respond s v) :
    ∃ t, onCommand j s run = .next t ∧ AnsweredWith s t j u ⟨0, v⟩ :=
  onCommand_answers hu (by rw [hrun, setUart_self hu])

/-- A command that fails a check of its own. -/
theorem onCommand_errs {run : Uart → State} {code : BitVec 4} (hrun : run u = raiseErr s code) :
    ∃ t, onCommand j s run = .next t ∧ Errored s t code :=
  ⟨_, (onCommand_present hu run).trans (congrArg _ hrun), errored_raiseErr s code⟩

end Responses

/-- The instance that a command left is the one its addresses read. -/
theorem AnsweredWith.byteAt?_eq {s t : State} {j : Inst} {u : Uart} {r : Resp}
    (h : AnsweredWith s t j u r) (d : Side) (k : Nat) :
    t.byteAt? ⟨j, d⟩ k = some (slotByte ⟨j, d⟩ (u.buf d).mem k) := by
  obtain ⟨⟨-, -, hu, -, -⟩, -⟩ := h
  exact byteAt?_of_uart? (id := ⟨j, d⟩) hu k

/-! ### Lifecycle, callback control and liveness -/

/-- Settles O13: the response carries the instance with its two pins written. -/
theorem setpinsStoresRequestedPins : Obligations.SetpinsStoresRequestedPins :=
  fun _ _ _ _ _ hu => onCommand_answers hu rfl

/-- Settles O14: with both checks passed, `BEGIN` leaves its sequence, which evaluates to the fields
named. -/
theorem beginConfiguresAndActivates : Obligations.BeginConfiguresAndActivates := by
  intro s j u m f baud hu hm hb
  refine onCommand_answers hu (u' := beginSequence s.params u m f baud) ?_
  simp only [hm, if_neg hb]

/-- Settles O15: a mode byte outside the table has no frame, and one in it lets the baud rate be
checked. -/
theorem beginChecksModeThenBaud : Obligations.BeginChecksModeThenBaud := by
  intro s j u m baud hu
  constructor
  · intro hm
    refine onCommand_errs hu ?_
    simp only [decodeMode_not_ok hm, eBadMode]
  · intro hm hb
    obtain ⟨f, hf⟩ := decodeMode_ok hm
    refine onCommand_errs hu ?_
    simp only [hf, if_pos hb, eBadBaud]

/-- Settles O16: `END` leaves its sequence, which evaluates to the fields named. -/
theorem endDeactivates : Obligations.EndDeactivates :=
  fun _ _ u hu => onCommand_answers hu (u' := endSequence u) rfl

/-- Settles O24: `BOOL` responds on the unchanged core, the other two with the flag written. -/
theorem boolAttachAndDetach : Obligations.BoolAttachAndDetach :=
  fun _ _ _ hu =>
    ⟨onCommand_reports hu rfl, onCommand_answers hu rfl, onCommand_answers hu rfl⟩

/-! ### The receive side -/

/-- The count of a well-formed buffer is below `N`, at most 65536, so 32 bits hold it. -/
theorem count_toNat {p : Params} {b : Buf} (hp : p.wf) (h : bufWf (slots p) b) :
    (BitVec.ofNat 32 (count (slots p) b)).toNat =
      if b.r ≤ b.w then b.w - b.r else b.w + slots p - b.r := by
  obtain ⟨-, -, hw, hr, -⟩ := h
  have hlt := count_lt hw hr
  have hslots := slots_le hp
  rw [BitVec.toNat_ofNat, Nat.mod_eq_of_lt (by omega), count_eq hw hr]

section Received
variable {s : State} {j : Inst} {u : Uart} (hu : s.uart? j = some u)
include hu

theorem exec_available :
    ∃ t, exec (.available j) s = .next t ∧
      AnsweredWith s t j u ⟨0, BitVec.ofNat 32 (count (slots s.params) u.rxb)⟩ :=
  onCommand_reports hu rfl

theorem exec_peek :
    ∃ t, exec (.peek j) s = .next t ∧
      AnsweredWith s t j u ⟨0, byteOrMinusOne (peekByte ⟨j, .rx⟩ u.rxb)⟩ :=
  onCommand_reports hu rfl

theorem exec_read :
    ∃ t, exec (.read j) s = .next t ∧
      AnsweredWith s t j { u with rxb := (readByte ⟨j, .rx⟩ (slots s.params) u.rxb).1 }
        ⟨0, byteOrMinusOne (readByte ⟨j, .rx⟩ (slots s.params) u.rxb).2⟩ :=
  ⟨_, exec_read_present hu, answeredWith_respond_setUart hu _ _⟩

end Received

/-- Settles O17: the count of a well-formed `RXB` reads back from its 32 bits. -/
theorem availableAnswersReceivedCount : Obligations.AvailableAnswersReceivedCount := by
  rintro s j u ⟨⟨hp, -⟩, huarts⟩ hu
  obtain ⟨t, hexec, ht⟩ := exec_available hu
  exact ⟨t, _, hexec, ht, count_toNat hp (uartWf_buf (huarts u (uart?_mem hu)) .rx)⟩

/-- Settles O18: `peekByte` on an empty and on a non-empty buffer. -/
theorem peekAnswersOldestByte : Obligations.PeekAnswersOldestByte := by
  intro s j u hu
  obtain ⟨t, hexec, ht⟩ := exec_peek hu
  refine ⟨t, hexec, ?_⟩
  split
  · next hempty => rwa [peekByte_empty _ (isEmpty_iff.2 hempty)] at ht
  · next hqueued => rwa [peekByte_some _ (isEmpty_eq_false_iff.2 hqueued)] at ht

/-- Settles O19: `readByte` on an empty and on a non-empty buffer. -/
theorem readRemovesOldestByte : Obligations.ReadRemovesOldestByte := by
  intro s j u hu
  obtain ⟨t, hexec, ht⟩ := exec_read hu
  constructor
  · intro hempty
    rw [readByte_empty _ (isEmpty_iff.2 hempty)] at ht
    exact ⟨t, hexec, ht⟩
  · intro hqueued
    rw [readByte_some _ (isEmpty_eq_false_iff.2 hqueued)] at ht
    exact ⟨t, hexec, ht⟩

/-! ### `FLUSH` and `WRITECOMPLETE` -/

theorem txIdle_iff {u : Uart} :
    txIdle u = true ↔ u.txb.w = u.txb.r ∧ u.per.txComplete = true := by
  rw [txIdle, Bool.and_eq_true, isEmpty_iff]

theorem bitValue_eq_one_iff {v : Bool} : bitValue v = 1 ↔ v = true := by
  cases v <;> simp [bitValue]

theorem bitValue_zero_or_one (v : Bool) : bitValue v = 0 ∨ bitValue v = 1 := by
  cases v
  · exact .inl rfl
  · exact .inr rfl

section Flush
variable {s : State} {j : Inst} {u : Uart} (hu : s.uart? j = some u)
include hu

theorem exec_writecomplete :
    ∃ t, exec (.writecomplete j) s = .next t ∧ AnsweredWith s t j u ⟨0, bitValue (txIdle u)⟩ :=
  onCommand_reports hu rfl

theorem exec_flush_idle (hidle : txIdle u = true) :
    ∃ t, exec (.flush j) s = .next t ∧ AnsweredWith s t j u ⟨0, 0⟩ :=
  onCommand_reports hu (if_pos hidle)

theorem exec_flush_busy (hbusy : txIdle u = false) : exec (.flush j) s = .next (notEnabled s) :=
  (onCommand_present hu _).trans (congrArg _ (if_neg (Bool.eq_false_iff.1 hbusy)))

/-- A `FLUSH` that holds adds no response, so the one that is answered finds an idle transmitter. -/
theorem txIdle_of_flush_answered {t : State} {r : Resp} (h : exec (.flush j) s = .next t)
    (hr : t.resps = s.resps ++ [r]) : txIdle u = true := by
  rw [← Bool.not_eq_false]
  intro hbusy
  obtain rfl := Host.Outcome.next.inj ((exec_flush_busy hu hbusy).symm.trans h)
  simp at hr

end Flush

/-- Settles O20: the two conditions are what `FLUSH` waits for. -/
theorem flushAnsweredWhenTransmitterIdle : Obligations.FlushAnsweredWhenTransmitterIdle :=
  fun _ _ _ hu hb hc => exec_flush_idle hu (txIdle_iff.2 ⟨hb, hc⟩)

/-- Settles O21: without one of the two the turn passes. -/
theorem flushHoldsWhileTransmitterBusy : Obligations.FlushHoldsWhileTransmitterBusy := by
  intro s j u hu hbusy
  have hnot : txIdle u = false := by
    rw [Bool.eq_false_iff, Ne, txIdle_iff]
    rintro ⟨hb, hc⟩
    exact hbusy.elim (absurd hb) fun hc' => nomatch hc.symm.trans hc'
  exact ⟨_, exec_flush_busy hu hnot, ⟨rfl, rfl, rfl, rfl, rfl⟩, rfl, rfl, rfl⟩

/-- Settles O22: the value is the bit of the condition `FLUSH` waits for. -/
theorem writecompleteForeseesFlush : Obligations.WritecompleteForeseesFlush := by
  intro s j u hu
  obtain ⟨t, hexec, ht⟩ := exec_writecomplete hu
  have hflush : txIdle u = true ↔
      ∃ t', exec (.flush j) s = .next t' ∧ t'.resps = s.resps ++ [⟨0, 0⟩] := by
    constructor
    · intro hidle
      obtain ⟨t', hexec', -, hresps, -⟩ := exec_flush_idle hu hidle
      exact ⟨t', hexec', hresps⟩
    · rintro ⟨t', hexec', hresps⟩
      exact txIdle_of_flush_answered hu hexec' hresps
  exact ⟨t, _, hexec, ht, bitValue_zero_or_one _, bitValue_eq_one_iff.trans txIdle_iff,
    bitValue_eq_one_iff.trans hflush⟩

/-! ### `WRITE` -/

/-- 10_state.md R44: the comparison is strict. -/
theorem guardActive_iff {p : Params} {u : Uart} :
    guardActive p u = true ↔ u.desc.bootGuardEn = true ∧ u.grdCnt < p.guardTicks := by
  rw [guardActive, Bool.and_eq_true, decide_eq_true_iff]

theorem guardActive_eq_false_iff {p : Params} {u : Uart} :
    guardActive p u = false ↔ u.desc.bootGuardEn = false ∨ p.guardTicks ≤ u.grdCnt := by
  rw [guardActive, Bool.and_eq_false_iff, decide_eq_false_iff_not, Nat.not_lt]

section Write
variable {s : State} {j : Inst} {u : Uart} (hu : s.uart? j = some u)
include hu

theorem exec_write_inactive (ha : u.ctl.life ≠ .active) (v : Byte) :
    ∃ t, exec (.write j v) s = .next t ∧ Errored s t eNotActive :=
  onCommand_errs hu (if_pos ha)

theorem exec_write_guarded (ha : u.ctl.life = .active) (hg : guardActive s.params u = true)
    (v : Byte) : ∃ t, exec (.write j v) s = .next t ∧ AnsweredWith s t j u ⟨0, 0⟩ :=
  onCommand_reports hu ((if_neg (not_not.2 ha)).trans (if_pos hg))

theorem exec_write_open (ha : u.ctl.life = .active) (hg : guardActive s.params u = false)
    (v : Byte) :
    ∃ t, exec (.write j v) s = .next t ∧
      AnsweredWith s t j
        { u with
          per := { u.per with txIrqEn := true }
          txb := (store (slots s.params) u.txb v).1 }
        ⟨0, bitValue (store (slots s.params) u.txb v).2⟩ :=
  ⟨_, exec_write_stores hu ha hg v, answeredWith_respond_setUart hu _ _⟩

/-- Of the storage a `WRITE` changes at most the slot at the write index of `TXB`. -/
theorem exec_write_byteAt?_ne {t : State} {v : Byte} (h : exec (.write j v) s = .next t)
    {id : BufId} {k : Nat} (hk : (id, k) ≠ (⟨j, .tx⟩, u.txb.w)) :
    t.byteAt? id k = s.byteAt? id k := by
  refine onlyStoresWriteStorage _ s t h id k ?_
  simpa [storeAddress, hu] using hk.symm

end Write

/-- Settles O23: outside the guard window `WRITE` is a `store`, which writes the slot at the write
index where there is room, and no slot where there is none. -/
theorem writeQueuesOneByte : Obligations.WriteQueuesOneByte := by
  intro s j u v hu
  refine ⟨fun ha => exec_write_inactive hu ha v, fun ha => ⟨fun hen hlt => ?_, fun hopen => ?_⟩⟩
  · exact exec_write_guarded hu ha (guardActive_iff.2 ⟨hen, hlt⟩) v
  · obtain ⟨t, hexec, ht⟩ := exec_write_open hu ha (guardActive_eq_false_iff.2 hopen) v
    constructor
    · intro hroom
      rw [store_room (isFull_eq_false_iff.2 hroom)] at ht
      refine ⟨t, _, hexec, ht, ?_, fun id k hk => exec_write_byteAt?_ne hu hexec hk⟩
      rw [ht.byteAt?_eq, buf_tx, slotByte, put_byteAt?_self, Option.getD_some]
    · intro hfull
      rw [store_full (isFull_iff.2 hfull)] at ht
      exact ⟨t, hexec, ht⟩

end Sys2Proof.Machine
end

section
/-! PROOFS. The lifecycle state is written by `BEGIN` and `END` alone (41_controller.md R144). -/

namespace Sys2Proof.Machine

/-- Of the changes only those of `BEGIN` and `END` write the lifecycle state. -/
theorem Change.life_eq {p : Params} {i : Instr} {j : Inst} {u u' : Uart} (hc : Change p i u u')
    (hj : i.inst? = some j) (hbegin : ∀ m baud, i ≠ .beginUart j m baud) (hend : i ≠ .endUart j) :
    u'.ctl.life = u.ctl.life := by
  cases hc with
  | setpins | read | write | attach | detach | rxArrive | txLoad | txShiftDone => rfl
  | bufStore | bufRead | bufClear => rw [setBuf_ctl]
  | dispatch i =>
    obtain ⟨-, hctl, -⟩ := serviceBoth_fields p i u
    rw [hctl]
  | begin k m baud =>
    obtain rfl := Option.some.inj hj
    exact absurd rfl (hbegin m baud)
  | ending k =>
    obtain rfl := Option.some.inj hj
    exact absurd rfl hend

section Outcomes
variable {i : Instr} {s t : State} {j : Inst} {u u' : Uart} (h : exec i s = .next t)
  (hu' : t.uart? j = some u')
include h hu'

/-- The instance after an operation that is known to be answered. -/
theorem uart_of_answered {v : Uart} {r : Resp}
    (hans : ∃ x, exec i s = .next x ∧ AnsweredWith s x j v r) : u' = v := by
  obtain ⟨x, hx, ⟨-, -, hv, -, -⟩, -⟩ := hans
  obtain rfl := Host.Outcome.next.inj (hx.symm.trans h)
  exact Option.some.inj (hu'.symm.trans hv)

/-- The instance after an operation that is known to be answered with an error. -/
theorem uart_of_errored {code : BitVec 4} (hu : s.uart? j = some u)
    (herr : ∃ x, exec i s = .next x ∧ Errored s x code) : u' = u := by
  obtain ⟨x, hx, -, huarts, -⟩ := herr
  obtain rfl := Host.Outcome.next.inj (hx.symm.trans h)
  have hsame : x.uart? j = s.uart? j := congrArg (·[j.toNat]?) huarts
  exact Option.some.inj (hu'.symm.trans (hsame.trans hu))

end Outcomes

/-- The lifecycle state after `BEGIN`, by its two checks (R132, R133). -/
theorem beginUart_life {s t : State} {j : Inst} {u u' : Uart} {m : Byte} {baud : BitVec 32}
    (h : exec (.beginUart j m baud) s = .next t) (hu : s.uart? j = some u)
    (hu' : t.uart? j = some u') :
    u'.ctl.life = if modeOk m = true ∧ baud ≠ 0 then .active else u.ctl.life := by
  obtain ⟨hbadMode, hbadBaud⟩ := beginChecksModeThenBaud s j u m baud hu
  cases hm : modeOk m with
  | false =>
    rw [uart_of_errored h hu' hu (hbadMode hm)]
    simp
  | true =>
    by_cases hb : baud = 0
    · rw [uart_of_errored h hu' hu (hbadBaud hm hb)]
      simp [hb]
    · obtain ⟨f, hf⟩ := decodeMode_ok hm
      rw [uart_of_answered h hu' (beginConfiguresAndActivates s j u m f baud hu hf hb)]
      exact (if_pos ⟨rfl, hb⟩).symm

/-- Settles O25: `BEGIN` and `END` are answered as O14 to O16 say, and no other change writes the
lifecycle state. -/
theorem lifecycleTable : Obligations.LifecycleTable := by
  intro i s t j u u' h hu hu'
  refine ⟨?_, ?_, fun hbegin hend => ?_⟩
  · rintro m baud rfl
    exact beginUart_life h hu hu'
  · rintro rfl
    rw [uart_of_answered h hu' (endDeactivates s j u hu)]
  · obtain rfl | ⟨hj, hc⟩ | ⟨-, rfl⟩ := exec_uart h hu hu'
    · rfl
    · exact hc.life_eq hj hbegin hend
    · rw [tickUart_frame]

end Sys2Proof.Machine
end

section
/-! PROOFS. A transmitter can be emptied: while it holds a byte, one of `DISPATCH`, `TX_LOAD` and
`TX_SHIFT_DONE` is enabled that moves a byte to its next stage. Such a step keeps the byte stream
and takes one from the work left, so that `txWork` steps leave everything on the line
(41_controller.md R138; 70_reset_and_hazards.md R259). -/

namespace Sys2Proof.Machine

/-- The steps that move the bytes of instance `j` towards the line. -/
def TransmitStep (j : Inst) (i : Instr) : Prop :=
  i = .dispatch j ∨ i = .txLoad j ∨ i = .txShiftDone j

theorem TransmitStep.port_event {j : Inst} {i : Instr} (h : TransmitStep j i) :
    i.port = .event := by
  obtain rfl | rfl | rfl := h <;> rfl

theorem TransmitStep.port_ne_buffer {j : Inst} {i : Instr} (h : TransmitStep j i) :
    i.port ≠ .buffer := by
  simp [h.port_event]

theorem TransmitStep.inst_eq {j : Inst} {i : Instr} (h : TransmitStep j i) : i.inst? = some j := by
  obtain rfl | rfl | rfl := h <;> rfl

/-- What is known of an instance of a core that meets the invariants. -/
structure Sound (p : Params) (u : Uart) : Prop where
  params : p.wf
  wf : uartWf p u
  control : ControlInv u
  transmit : uartTxInv p u

theorem sound_of_txInv {s : State} {j : Inst} {u : Uart} (h : s.txInv) (hu : s.uart? j = some u) :
    Sound s.params u := by
  obtain ⟨⟨⟨⟨hp, -⟩, hwf⟩, hinv⟩, htx⟩ := h
  have hmem := uart?_mem hu
  exact ⟨hp, hwf u hmem, (uartInv_iff_controlInv (hwf u hmem)).1 (hinv u hmem), htx u hmem⟩

/-! ### What each of the three steps does -/

/-- The change of an enabled event is the one its step makes. -/
theorem Change.exec_event {s : State} {i : Instr} {j : Inst} {u u' : Uart}
    (hc : Change s.params i u u') (hport : i.port = .event) (hj : i.inst? = some j)
    (hu : s.uart? j = some u) : ∃ t, exec i s = .next t ∧ t.uart? j = some u' := by
  cases hc with
  | dispatch _ _ he | rxArrive _ _ _ _ he | txLoad _ _ he | txShiftDone _ _ he =>
    obtain rfl := Option.some.inj hj
    exact ⟨_, onEvent_enabled hu he _, setUart_uart?_self hu⟩
  | setpins | begin | ending | read | write | attach | detach | bufStore | bufRead | bufClear =>
    nomatch hport

section Kept
variable {p : Params} {j : Inst} {i : Instr} {u u' : Uart} (hc : Change p i u u')
  (hi : TransmitStep j i) (h : Sound p u)
include hc hi h

theorem Change.transmitStep_sound : Sound p u' :=
  ⟨h.params, hc.keeps_uartWf h.params h.wf,
    hc.keeps_controlInv hi.port_ne_buffer h.control,
    hc.keeps_uartTxInv hi.port_ne_buffer h.transmit⟩

theorem Change.transmitStep_txStream : txStream p j u' = txStream p j u := by
  obtain hkept | ⟨v, rfl, -⟩ | ⟨⟨m, baud, rfl⟩ | rfl, -⟩ :=
    hc.txStream_cases h.params h.wf hi.inst_eq hi.port_ne_buffer
  · exact hkept
  all_goals exact nomatch hi.port_event

end Kept

/-! ### The work left -/

@[simp] theorem receivePart_txWork (p : Params) (u : Uart) :
    txWork p (receivePart p u).1 = txWork p u := by
  rw [receivePart_frame]
  rfl

/-- No work is left where both registers and the buffer are empty. -/
theorem txWork_eq_zero_iff {p : Params} {u : Uart} (h : uartWf p u) :
    txWork p u = 0 ↔
      isEmpty u.txb = true ∧ u.per.txEmpty = true ∧ u.per.shBusy = false := by
  obtain ⟨-, ⟨-, -, hw, hr, -⟩, -⟩ := h
  rw [isEmpty_iff_count hw hr, txWork]
  cases u.per.txEmpty <;> cases u.per.shBusy <;> simp

section Work
variable {p : Params} {u : Uart} (hp : p.wf) (h : uartWf p u)
include hp h

/-- A byte in the transmit register has one step less to go than one in the queue. -/
theorem transmitPart_txWork (he : isEmpty u.txb = false) (hemp : u.per.txEmpty = true) (j : Inst) :
    txWork p (transmitPart p j u) + 1 = txWork p u := by
  obtain ⟨-, ⟨-, -, hw, hr, -⟩, -⟩ := h
  have hcount := readByte_count (two_le_slots hp) ⟨j, .tx⟩ hw hr he
  rw [transmitPart_queued p j u he]
  simp only [txWork, hemp, Bool.false_eq_true, if_false, if_true]
  omega

/-- A `DISPATCH` with the TX event pending runs the transmit engine, with or without the receive
engine before it. -/
theorem serviceBoth_txWork (he : isEmpty u.txb = false) (hev : txEv u = true) (j : Inst) :
    txWork p (serviceBoth p j u).1 + 1 = txWork p u := by
  have hemp := txEmpty_of_txEv hev
  cases hrx : rxEv u with
  | false =>
    rw [serviceBoth_tx p j u hrx hev]
    exact transmitPart_txWork hp h he hemp j
  | true =>
    have hemp' : (receivePart p u).1.per.txEmpty = true := by
      rw [receivePart_frame]
      exact hemp
    rw [serviceBoth_both p j u hrx hev, ← receivePart_txWork p u]
    exact transmitPart_txWork hp (receivePart_uartWf h hp) (by rw [receivePart_txb, he]) hemp' j

end Work

section Progress
variable {p : Params} {u : Uart} (h : Sound p u)
include h

/-- An instance with work left has its clock on: one that is not active holds no byte (R46 (I2)). -/
theorem Sound.clkEn_of_txWork (hwork : txWork p u ≠ 0) : u.per.clkEn = true := by
  cases hl : u.ctl.life with
  | active => exact (h.control.active hl).1
  | configuring => exact absurd hl h.control.notConfiguring
  | idle =>
    obtain ⟨-, -, -, -, hb, -, hemp, -, hsh⟩ := h.control.idle hl
    exact absurd ((txWork_eq_zero_iff h.wf).2 ⟨hb, hemp, hsh⟩) hwork

/-- With work left, some step is enabled that takes one from it: `TX_SHIFT_DONE` where a byte is in
the shift register, else `TX_LOAD` where one waits in the transmit register, else `DISPATCH`, which
(I4) enables for a queued byte. -/
theorem Sound.exists_transmitStep (hwork : txWork p u ≠ 0) (j : Inst) :
    ∃ i u', TransmitStep j i ∧ Change p i u u' ∧ txWork p u' + 1 = txWork p u := by
  have hclk := h.clkEn_of_txWork hwork
  cases hsh : u.per.shBusy with
  | true =>
    refine ⟨_, _, .inr (.inr rfl), .txShiftDone j u (txShiftDoneEnabled_iff.2 ⟨hclk, hsh⟩), ?_⟩
    simp [txWork, hsh]
  | false =>
    cases hemp : u.per.txEmpty with
    | false =>
      refine ⟨_, _, .inr (.inl rfl), .txLoad j u (txLoadEnabled_iff.2 ⟨hclk, hemp, hsh⟩), ?_⟩
      simp [txWork, hsh, hemp]
    | true =>
      have hb : isEmpty u.txb = false := by
        rw [← Bool.not_eq_true]
        intro hb
        exact hwork ((txWork_eq_zero_iff h.wf).2 ⟨hb, hemp, hsh⟩)
      have hev : txEv u = true := by simp [txEv, hemp, h.control.queued hb]
      have hirq : irq u = true := by simp [irq, hclk, hev]
      exact ⟨_, _, .inl rfl, .dispatch j u hirq, serviceBoth_txWork h.params h.wf hb hev j⟩

/-- With no work left the transmitter is idle, and all its bytes are on the line. -/
theorem Sound.emptied_of_txWork (hwork : txWork p u = 0) (j : Inst) :
    txIdle u = true ∧ u.wire = txStream p j u := by
  obtain ⟨hb, hemp, hsh⟩ := (txWork_eq_zero_iff h.wf).1 hwork
  obtain ⟨-, ⟨-, -, hw, hr, -⟩, -⟩ := h.wf
  constructor
  · simp [txIdle, hb, h.transmit.1 hemp hsh]
  · exact (txStream_eq_wire hsh hemp (contents_empty ⟨j, .tx⟩ hw hr hb)).symm

end Progress

/-! ### The run -/

theorem execAll_cons {i : Instr} {s t : State} (h : exec i s = .next t) (is : List Instr) :
    execAll (i :: is) s = execAll is t := by
  simp only [execAll, h]

/-- The transmitter is emptied in as many steps as there is work left. -/
theorem exists_emptying_run {j : Inst} (n : Nat) {s : State} {u : Uart} (hu : s.uart? j = some u)
    (h : Sound s.params u) (hn : txWork s.params u = n) :
    ∃ (steps : List Instr) (t : State) (u' : Uart), steps.length = n ∧
      (∀ i ∈ steps, TransmitStep j i) ∧ execAll steps s = .next t ∧ t.uart? j = some u' ∧
      txIdle u' = true ∧ u'.wire = txStream s.params j u := by
  induction n generalizing s u with
  | zero => exact ⟨[], s, u, rfl, nofun, rfl, hu, h.emptied_of_txWork hn j⟩
  | succ n ih =>
    obtain ⟨i, v, hi, hc, hwork⟩ := h.exists_transmitStep (by omega) j
    obtain ⟨x, hx, hv⟩ := hc.exec_event hi.port_event hi.inst_eq hu
    obtain ⟨hp, -⟩ := exec_next hx
    obtain ⟨steps, t, u', hlen, hsteps, hrun, hu', hidle, hwire⟩ :=
      ih hv (hp ▸ hc.transmitStep_sound hi h) (by rw [hp]; omega)
    refine ⟨i :: steps, t, u', by simp [hlen], List.forall_mem_cons.2 ⟨hi, hsteps⟩,
      (execAll_cons hx steps).trans hrun, hu', hidle, ?_⟩
    rw [hwire, hp, hc.transmitStep_txStream hi h]

/-- Settles O59: the run empties the transmitter, and `FLUSH` waits for nothing else. -/
theorem transmitterCanBeEmptied : Obligations.TransmitterCanBeEmptied := by
  intro s j u hinv hu
  obtain ⟨steps, t, u', hlen, hsteps, hrun, hu', hidle, hwire⟩ :=
    exists_emptying_run _ hu (sound_of_txInv hinv hu) rfl
  obtain ⟨x, hflush, hx⟩ := exec_flush_idle hu' hidle
  exact ⟨steps, t, x, u', hlen.le, hsteps, hrun, hu', hwire, hflush, hx⟩

end Sys2Proof.Machine
end

section
/-! PROOFS. The router is the inverse of the vector identities (42_dispatch.md R170,
00_scope.md R11). -/

namespace Sys2Proof.Machine

/-- An instance's own vector maps to it: of instances with distinct vectors no earlier one has
it. -/
theorem route_vecId {s : State} (hnd : (s.uarts.map fun u => u.desc.vecId).Nodup) {j : Inst}
    {u : Uart} (hu : s.uart? j = some u) : route s u.desc.vecId = some j := by
  obtain ⟨hj, rfl⟩ := uart?_eq_some_iff.1 hu
  have hfirst : s.uarts.findIdx? (fun u => u.desc.vecId == s.uarts[j.toNat].desc.vecId) =
      some j.toNat := by
    refine List.findIdx?_eq_some_iff_getElem.2 ⟨hj, beq_self_eq_true _, fun k hk heq => ?_⟩
    have hsame : (s.uarts.map fun u => u.desc.vecId)[k]'(by simp; omega) =
        (s.uarts.map fun u => u.desc.vecId)[j.toNat]'(by simpa) := by simpa using heq
    exact absurd (hnd.getElem_inj_iff.1 hsame) hk.ne
  rw [route, hfirst, Option.map_some, BitVec.ofNat_toNat, BitVec.setWidth_eq]

theorem route_unmapped {s : State} {v : Nat} (h : ∀ u ∈ s.uarts, u.desc.vecId ≠ v) :
    route s v = none := by
  simpa [route] using h

/-- A vector's turn asks for nothing inside the model where it maps to no instance (R170, log 5). -/
theorem asked_unmapped {s : State} {v : Nat} (h : route s v = none) :
    asked (.vector v) s = .outside (.unmappedVector v) := by
  simp only [asked, h]

/-- Settles O9: the vectors are distinct by R11, so each maps to its own instance. -/
theorem routerInvertsVectorIdentities : Obligations.RouterInvertsVectorIdentities := by
  rintro s rest v ⟨-, -, -, -, hnd⟩ hts
  constructor
  · rintro j u hu rfl
    exact step_of_asked_op hts (asked_vector (route_vecId hnd hu))
  · intro hv
    exact step_of_asked_outside hts (asked_unmapped (route_unmapped hv))

end Sys2Proof.Machine
end

section
/-! PROOFS. What a `DISPATCH` that runs does to its instance and to the core (42_dispatch.md R172 to
R174): the receive side and the transmit side of the ISR do not touch each other, so each obeys its
own engine whether or not the other event is pending. -/

namespace Sys2Proof.Machine

/-! ### The two halves of one ISR entry -/

/-- The receive half of an ISR entry: the receive engine, where its event is pending (R174). -/
def receiveHalf (p : Params) (u : Uart) : Uart × Option Byte :=
  if rxEv u then receivePart p u else (u, none)

/-- The transmit half of an ISR entry: the transmit engine, where its event is pending (R174). -/
def transmitHalf (p : Params) (i : Inst) (u : Uart) : Uart :=
  if txEv u then transmitPart p i u else u

section Halves
variable (p : Params) (i : Inst) (u : Uart)

theorem receiveHalf_idle (h : rxEv u = false) : receiveHalf p u = (u, none) := by
  simp [receiveHalf, h]

theorem receiveHalf_callback (h : rxEv u = true) (hcb : u.ctl.cbAttached = true) :
    receiveHalf p u = ({ u with per := { u.per with rxReady := false } }, some u.per.rxData) := by
  simp [receiveHalf, h, receivePart_callback p u hcb]

theorem receiveHalf_buffered (h : rxEv u = true) (hcb : u.ctl.cbAttached = false) :
    receiveHalf p u =
      ({ u with
          per := { u.per with rxReady := false }
          rxb := (store (slots p) u.rxb u.per.rxData).1 }, none) := by
  simp [receiveHalf, h, receivePart_buffered p u hcb]

@[simp] theorem receivePart_rxReady : (receivePart p u).1.per.rxReady = false := by
  rw [receivePart_frame]

/-- With a callback the receive half stores nothing (R172). -/
theorem receiveHalf_rxb_callback (hcb : u.ctl.cbAttached = true) :
    (receiveHalf p u).1.rxb = u.rxb := by
  cases h : rxEv u with
  | true => rw [receiveHalf_callback p u h hcb]
  | false => rw [receiveHalf_idle p u h]

/-- The receive half leaves no receive event: reading the register clears its flag (R172). -/
theorem receiveHalf_clears_rxEv :
    ((receiveHalf p u).1.per.rxReady && u.per.rxIrqEn) = false := by
  cases h : rxEv u with
  | true => rw [receiveHalf, if_pos h, receivePart_rxReady, Bool.false_and]
  | false =>
    rw [receiveHalf_idle p u h]
    exact h

theorem transmitHalf_idle (h : txEv u = false) : transmitHalf p i u = u := by
  simp [transmitHalf, h]

theorem transmitHalf_empty (h : txEv u = true) (he : isEmpty u.txb = true) :
    transmitHalf p i u = { u with per := { u.per with txIrqEn := false } } := by
  simp [transmitHalf, h, transmitPart_empty p i u he]

/-- The oldest queued byte moves to the transmit register, and the line stays enabled where another
is left (R173). -/
theorem transmitHalf_queued (h : txEv u = true) (he : isEmpty u.txb = false) :
    transmitHalf p i u =
      { u with
        txb := { u.txb with r := addN (slots p) u.txb.r 1 }
        per := { u.per with
          txData := slotByte ⟨i, .tx⟩ u.txb.mem u.txb.r, txEmpty := false, txComplete := false
          txIrqEn := if u.txb.w = addN (slots p) u.txb.r 1 then false else u.per.txIrqEn } } := by
  simp [transmitHalf, h, transmitPart_queued p i u he, readByte_some _ he, isEmpty]

theorem transmitHalf_txEv : txEv (transmitHalf p i u) = false := by
  cases h : txEv u with
  | true => rw [transmitHalf, if_pos h, transmitPart_txEv]
  | false => rw [transmitHalf_idle p i u h, h]

/-- The transmit half writes `TXB.r`, the transmit register with its two flags, and the
transmit-interrupt enable; nothing else (R173). -/
theorem transmitHalf_frame :
    transmitHalf p i u =
      { u with
        txb := { u.txb with r := (transmitHalf p i u).txb.r }
        per := { u.per with
          txData := (transmitHalf p i u).per.txData
          txEmpty := (transmitHalf p i u).per.txEmpty
          txComplete := (transmitHalf p i u).per.txComplete
          txIrqEn := (transmitHalf p i u).per.txIrqEn } } := by
  cases h : txEv u with
  | false => rw [transmitHalf_idle p i u h]
  | true =>
    cases he : isEmpty u.txb with
    | true => rw [transmitHalf_empty p i u h he]
    | false => rw [transmitHalf_queued p i u h he]

/-- The transmit engine does not read or write the receive side. -/
theorem transmitPart_set_receive (ready : Bool) (b : Buf) :
    transmitPart p i { u with rxb := b, per := { u.per with rxReady := ready } } =
      { transmitPart p i u with
        rxb := b, per := { (transmitPart p i u).per with rxReady := ready } } := by
  cases h : isEmpty u.txb with
  | true =>
    rw [transmitPart_empty p i u h, transmitPart_empty]
    exact h
  | false =>
    rw [transmitPart_queued p i u h, transmitPart_queued]
    exact h

/-- One ISR entry is its two halves side by side: the receive half gives `RXB` and `rx_ready`, the
transmit half all the rest. -/
theorem serviceBoth_eq_halves :
    serviceBoth p i u =
      ({ transmitHalf p i u with
          rxb := (receiveHalf p u).1.rxb
          per := { (transmitHalf p i u).per with rxReady := (receiveHalf p u).1.per.rxReady } },
        (receiveHalf p u).2) := by
  obtain ⟨hr, ht, h⟩ | ⟨hr, ht, h⟩ | ⟨hr, ht, h⟩ | ⟨hr, ht, h⟩ := serviceBoth_cases p i u
  · rw [h, receivePart_frame, transmitPart_set_receive, transmitHalf, if_pos ht, receiveHalf,
      if_pos hr, receivePart_frame]
  · rw [h, transmitHalf_idle p i u ht, receiveHalf, if_pos hr, receivePart_rxReady,
      ← receivePart_frame]
  · rw [h, receiveHalf_idle p u hr, transmitHalf, if_pos ht, transmitPart_frame]
  · rw [h, receiveHalf_idle p u hr, transmitHalf_idle p i u ht]

end Halves


/-! ### What a `DISPATCH` that runs leaves -/

theorem irq_iff {u : Uart} :
    irq u = true ↔ u.per.clkEn = true ∧ (rxEv u = true ∨ txEv u = true) := by
  simp [irq]

theorem rxEv_iff {u : Uart} : rxEv u = true ↔ u.per.rxReady = true ∧ u.per.rxIrqEn = true := by
  simp [rxEv]

theorem txEv_iff {u : Uart} : txEv u = true ↔ u.per.txEmpty = true ∧ u.per.txIrqEn = true := by
  simp [txEv]

/-- The one changed instance is the one its addresses read. -/
theorem OnlyUart.byteAt?_eq {s t : State} {j : Inst} {u : Uart} (h : OnlyUart s t j u) (d : Side)
    (k : Nat) : t.byteAt? ⟨j, d⟩ k = some (slotByte ⟨j, d⟩ (u.buf d).mem k) := by
  obtain ⟨-, -, hu, -, -⟩ := h
  exact byteAt?_of_uart? (id := ⟨j, d⟩) hu k

section Dispatch
variable {s : State} {j : Inst} {u : Uart} (hu : s.uart? j = some u)
include hu

/-- An enabled `DISPATCH` is taken: its instance goes through one ISR entry, and the byte that the
receive half delivers joins `CBLOG`. -/
theorem exec_dispatch_enabled (hirq : irq u = true) :
    ∃ t, exec (.dispatch j) s = .next t ∧
      TakenWith s t j (serviceBoth s.params j u).1
        ((receiveHalf s.params u).2.map fun v => (j.toNat, v)).toList := by
  refine ⟨_, onEvent_enabled hu hirq _, onlyUart_setUart hu _, ?_, rfl, rfl, rfl, rfl⟩
  rw [serviceBoth_eq_halves]
  rfl

/-- Of the storage a `DISPATCH` changes at most the slot at the write index of `RXB`. -/
theorem exec_dispatch_byteAt?_ne {t : State} (h : exec (.dispatch j) s = .next t) {id : BufId}
    {k : Nat} (hk : (id, k) ≠ (⟨j, .rx⟩, u.rxb.w)) : t.byteAt? id k = s.byteAt? id k := by
  refine onlyStoresWriteStorage _ s t h id k ?_
  simpa [storeAddress, hu] using hk.symm

/-- A `DISPATCH` that leaves `RXB` leaves all storage. -/
theorem exec_dispatch_byteAt?_eq {t : State} {u' : Uart} (h : exec (.dispatch j) s = .next t)
    (ht : OnlyUart s t j u') (hrxb : u'.rxb = u.rxb) (id : BufId) (k : Nat) :
    t.byteAt? id k = s.byteAt? id k := by
  by_cases hk : (id, k) = (⟨j, .rx⟩, u.rxb.w)
  · obtain ⟨rfl, rfl⟩ := Prod.mk.inj hk
    rw [ht.byteAt?_eq, byteAt?_of_uart? hu, buf_rx, buf_rx, hrxb]
  · exact exec_dispatch_byteAt?_ne hu h hk

end Dispatch

/-! ### The statements -/

/-- Settles O35: the receive half gives `RXB`, `rx_ready` and the byte delivered, whatever the
transmit half does. -/
theorem dispatchReceives : Obligations.DispatchReceives := by
  intro s j u hu hclk hready hen
  have hrx : rxEv u = true := rxEv_iff.2 ⟨hready, hen⟩
  obtain ⟨t, hexec, ht, hlog, -⟩ := exec_dispatch_enabled hu (irq_iff.2 ⟨hclk, .inl hrx⟩)
  have hbyte := ht.byteAt?_eq .rx u.rxb.w
  have hother := fun id k => exec_dispatch_byteAt?_ne hu hexec (id := id) (k := k)
  obtain ⟨-, -, hu', -, -⟩ := ht
  refine ⟨t, _, hexec, hu', ?_⟩
  rw [serviceBoth_eq_halves, transmitHalf_frame] at hbyte ⊢
  cases hcb : u.ctl.cbAttached with
  | true =>
    rw [receiveHalf_callback _ _ hrx hcb] at hlog ⊢
    exact ⟨rfl, hen, fun _ => ⟨hlog, rfl⟩, nofun⟩
  | false =>
    rw [receiveHalf_buffered _ _ hrx hcb] at hlog hbyte ⊢
    refine ⟨rfl, hen, nofun, fun _ => ⟨by simpa using hlog, fun hfull => ?_, fun hroom => ?_⟩⟩
    · rw [store_full (isFull_iff.2 hfull)]
    · rw [store_room (isFull_eq_false_iff.2 hroom)] at hbyte ⊢
      refine ⟨rfl, rfl, ?_, hother⟩
      rw [hbyte, buf_rx, slotByte, put_byteAt?_self, Option.getD_some]

/-- Settles O36: the transmit half gives `TXB` and the transmit registers, whatever the receive half
does. -/
theorem dispatchTransmits : Obligations.DispatchTransmits := by
  intro s j u hu hclk hempty hen
  have htx : txEv u = true := txEv_iff.2 ⟨hempty, hen⟩
  obtain ⟨t, hexec, ⟨-, -, hu', -, -⟩, -⟩ :=
    exec_dispatch_enabled hu (irq_iff.2 ⟨hclk, .inr htx⟩)
  refine ⟨t, _, hexec, hu', ?_⟩
  rw [serviceBoth_eq_halves]
  constructor
  · intro hqueued
    rw [transmitHalf_queued _ _ _ htx (isEmpty_eq_false_iff.2 hqueued)]
    refine ⟨rfl, rfl, rfl, rfl, ?_⟩
    simp [hen, addN]
  · intro hnone
    rw [transmitHalf_empty _ _ _ htx (isEmpty_iff.2 hnone)]
    exact ⟨rfl, rfl⟩

/-- Settles O37: the frames of the two halves, and the storage rule of O45. -/
theorem dispatchFrame : Obligations.DispatchFrame := by
  intro s j u hu hirq
  obtain ⟨t, hexec, ht⟩ := exec_dispatch_enabled hu hirq
  have ⟨honly, _⟩ := ht
  refine ⟨t, _, _, hexec, ht, ?_, onlyStoresWriteStorage _ s t hexec, fun hcb => ?_, fun hrx => ?_,
    fun htx => ?_⟩
  · obtain ⟨-, -, -, -, hr, -⟩ := serviceBoth_fields s.params j u
    rw [← hr, serviceBoth_eq_halves, transmitHalf_frame]
  · have hrxb : (serviceBoth s.params j u).1.rxb = u.rxb := by
      rw [serviceBoth_eq_halves]
      exact receiveHalf_rxb_callback _ _ hcb
    exact ⟨hrxb, exec_dispatch_byteAt?_eq hu hexec honly hrxb⟩
  · rw [serviceBoth_eq_halves, receiveHalf_idle _ _ hrx]
    exact ⟨rfl, rfl, rfl⟩
  · rw [serviceBoth_eq_halves, transmitHalf_idle _ _ _ htx]
    exact ⟨rfl, rfl⟩

/-- Settles O38: each half leaves its own event not pending, and the other half does not touch
it. -/
theorem dispatchLeavesNoRequest : Obligations.DispatchLeavesNoRequest := by
  intro s j u hu hirq
  obtain ⟨t, hexec, ⟨-, -, hu', -, -⟩, -⟩ := exec_dispatch_enabled hu hirq
  have hrx : rxEv (serviceBoth s.params j u).1 = false := by
    rw [serviceBoth_eq_halves, transmitHalf_frame]
    exact receiveHalf_clears_rxEv _ _
  have htx : txEv (serviceBoth s.params j u).1 = false := by
    rw [serviceBoth_eq_halves]
    exact transmitHalf_txEv _ _ _
  exact ⟨t, _, hexec, hu', hrx, htx, by simp [irq, hrx, htx]⟩

end Sys2Proof.Machine
end

section
/-! PROOFS. What a taken environment event leaves of its instance, what a tick leaves of all of them,
and how long the boot-guard window lasts (43_environment_timer.md R190 to R195). -/

namespace Sys2Proof.Machine

/-! ### Events of one instance -/

/-- An enabled event that writes its instance is taken, and delivers nothing to `CBLOG`. -/
theorem onEvent_takes {s : State} {j : Inst} {u u' : Uart} {enabled : Uart → Bool}
    {move : Uart → State} (hu : s.uart? j = some u) (he : enabled u = true)
    (hmove : move u = s.setUart j u') :
    ∃ t, onEvent j s enabled move = .next t ∧ TakenWith s t j u' [] :=
  ⟨_, (onEvent_enabled hu he move).trans (congrArg (Host.Outcome.next <| taken ·) hmove),
    onlyUart_setUart hu u', (List.append_nil _).symm, rfl, rfl, rfl, rfl⟩

/-- Settles O39: the clock alone enables `RX_ARRIVE`, and the old byte is kept on an overrun with
`keep`. -/
theorem rxArriveFillsRegister : Obligations.RxArriveFillsRegister := by
  intro s j u v keep hu hclk
  refine onEvent_takes (enabled := rxArriveEnabled) hu hclk ?_
  simp only [Bool.and_eq_true]

/-- Settles O40: the three hypotheses are the enabling condition of `TX_LOAD`. -/
theorem txLoadMovesByteToShiftRegister : Obligations.TxLoadMovesByteToShiftRegister :=
  fun _ _ _ hu hclk hwaiting hidle =>
    onEvent_takes hu (txLoadEnabled_iff.2 ⟨hclk, hwaiting, hidle⟩) rfl

/-- Settles O41: the two hypotheses are the enabling condition of `TX_SHIFT_DONE`. -/
theorem txShiftDonePutsByteOnWire : Obligations.TxShiftDonePutsByteOnWire :=
  fun _ _ _ hu hclk hbusy => onEvent_takes hu (txShiftDoneEnabled_iff.2 ⟨hclk, hbusy⟩) rfl

/-! ### Ticks -/

theorem exec_tick (s : State) :
    exec .tick s = .next (taken { s with uarts := s.uarts.map (tickUart s.params) }) := rfl

theorem exec_tick_getElem? {s t : State} {k : Nat} {u : Uart} (h : exec .tick s = .next t)
    (hu : s.uarts[k]? = some u) : t.uarts[k]? = some (tickUart s.params u) := by
  obtain rfl := Host.Outcome.next.inj h
  rw [taken_uarts, List.getElem?_map, hu, Option.map_some]

/-- A tick on one instance: a boot guard's counter below `GUARD_TICKS` advances (R194). -/
theorem tickUart_eq (p : Params) (u : Uart) :
    tickUart p u =
      { u with
        grdCnt := if u.desc.bootGuardEn = true ∧ u.grdCnt < p.guardTicks
          then u.grdCnt + 1 else u.grdCnt } := by
  cases hg : u.desc.bootGuardEn <;> simp [tickUart, guardTick, hg]

/-- Settles O42: `TICK` is enabled everywhere, and ticks each instance. -/
theorem tickAdvancesGuardCounters : Obligations.TickAdvancesGuardCounters := by
  intro s
  refine ⟨_, exec_tick s, List.length_map _, fun k u hu => ?_, rfl, rfl, rfl, rfl, rfl, rfl, rfl⟩
  rw [exec_tick_getElem? (exec_tick s) hu, tickUart_eq]

theorem repeatExec_succ {i : Instr} {s t : State} (h : exec i s = .next t) (n : Nat) :
    repeatExec i (n + 1) s = repeatExec i n t := by
  simp only [repeatExec, h]

/-- `k` ticks of the core are `k` ticks of each instance, under the same parameters. -/
theorem repeatExec_tick_uart? {j : Inst} {k : Nat} {s t : State} {u : Uart}
    (h : repeatExec .tick k s = .next t) (hu : s.uart? j = some u) :
    t.params = s.params ∧ t.uart? j = some ((tickUart s.params)^[k] u) := by
  induction k generalizing s u with
  | zero =>
    obtain rfl := Host.Outcome.next.inj h
    exact ⟨rfl, hu⟩
  | succ k ih =>
    have hrest := (repeatExec_succ (exec_tick s) k).symm.trans h
    obtain ⟨hp, hu'⟩ := ih hrest (exec_tick_getElem? (exec_tick s) hu)
    exact ⟨hp, hu'⟩

/-- The counter of a boot guard after `k` ticks: it saturates at `GUARD_TICKS` (R194). -/
theorem tickUart_iterate {p : Params} {u : Uart} (hg : u.desc.bootGuardEn = true)
    (hle : u.grdCnt ≤ p.guardTicks) (k : Nat) :
    (tickUart p)^[k] u = { u with grdCnt := min (u.grdCnt + k) p.guardTicks } := by
  induction k with
  | zero => rw [Function.iterate_zero_apply, Nat.add_zero, Nat.min_eq_left hle]
  | succ k ih =>
    have hcnt : (if min (u.grdCnt + k) p.guardTicks < p.guardTicks
        then min (u.grdCnt + k) p.guardTicks + 1 else min (u.grdCnt + k) p.guardTicks) =
        min (u.grdCnt + (k + 1)) p.guardTicks := by
      split <;> omega
    rw [Function.iterate_succ_apply', ih, tickUart_eq]
    simp only [hg, true_and, hcnt]

/-! ### The guard window -/

theorem clear_not_isFull {n : Nat} (hn : 2 ≤ n) (b : Buf) : isFull n (clear b) = false := by
  refine isFull_eq_false_iff.2 ?_
  rw [clear, Nat.zero_add, Nat.mod_eq_of_lt hn]
  exact Nat.one_ne_zero

/-- An accepted `BEGIN` of a guarded instance and `k` ticks leave the `BEGIN` sequence with the counter
at `k`, or at `GUARD_TICKS` from there on. -/
theorem uart?_of_begin_ticks {s t t' : State} {j : Inst} {u : Uart} {m : Byte} {f : Frame}
    {baud : BitVec 32} {k : Nat} (hu : s.uart? j = some u) (hg : u.desc.bootGuardEn = true)
    (hm : decodeMode m = some f) (hb : baud ≠ 0) (hbegin : exec (.beginUart j m baud) s = .next t)
    (hticks : repeatExec .tick k t = .next t') :
    t'.params = s.params ∧
      t'.uart? j = some { beginSequence s.params u m f baud with
        grdCnt := min k s.params.guardTicks } := by
  obtain ⟨_, hexec, ⟨hp, -, hu₁, -, -⟩, -⟩ := beginConfiguresAndActivates s j u m f baud hu hm hb
  obtain rfl := Host.Outcome.next.inj (hexec.symm.trans hbegin)
  obtain ⟨hp', hu'⟩ := repeatExec_tick_uart? hticks hu₁
  have hzero : (beginSequence s.params u m f baud).grdCnt = 0 := if_pos hg
  have hiter := tickUart_iterate (p := s.params) (u := beginSequence s.params u m f baud) hg
    (hzero ▸ Nat.zero_le _) k
  rw [hzero, Nat.zero_add] at hiter
  exact ⟨hp'.trans hp, by rw [hu', hp]; exact congrArg some hiter⟩

/-- Settles O44: after `k` ticks the counter is below `GUARD_TICKS` exactly if `k` is; from then on the
`WRITE` finds the buffer that `BEGIN` cleared, which has room. -/
theorem guardWindowLastsGuardTicks : Obligations.GuardWindowLastsGuardTicks := by
  rintro s t t' j u m v f baud k ⟨⟨hpar, -⟩, -⟩ hu hg hm hb hbegin hticks
  obtain ⟨hp, hu'⟩ := uart?_of_begin_ticks hu hg hm hb hbegin hticks
  by_cases hk : k < s.params.guardTicks
  · have hactive : min k s.params.guardTicks < t'.params.guardTicks := by
      rw [hp]
      omega
    obtain ⟨x, hexec, -, hresps, -⟩ :=
      exec_write_guarded hu' rfl (guardActive_iff.2 ⟨hg, hactive⟩) v
    exact ⟨x, hexec, by rw [hresps, if_pos hk]⟩
  · have hexpired : t'.params.guardTicks ≤ min k s.params.guardTicks := by
      rw [hp]
      omega
    obtain ⟨x, hexec, -, hresps, -⟩ :=
      exec_write_open hu' rfl (guardActive_eq_false_iff.2 (.inr hexpired)) v
    have hroom : isFull (slots t'.params) (beginSequence s.params u m f baud).txb = false :=
      clear_not_isFull (two_le_slots (hp ▸ hpar)) u.txb
    exact ⟨x, hexec, by rw [hresps, store_accepted, hroom, if_neg hk]; rfl⟩

end Sys2Proof.Machine
end

section
/-! PROOFS. An error response of a host command changes nothing of the core (60_exceptions.md
R210). -/

namespace Sys2Proof.Machine

/-- Settles O11: a command that responds has code 0 and a `FLUSH` that holds adds no response, so a
nonzero code comes from `raiseErr`, which writes the host port alone. -/
theorem errorResponseChangesNothing : Obligations.ErrorResponseChangesNothing := by
  intro i s t r hport h hr hcode
  obtain ⟨c, hc, rfl⟩ | ⟨v, s', rfl, hresps, -⟩ | ⟨-, rfl⟩ := command_cases hport h
  · obtain rfl : ⟨c, 0⟩ = r := by simpa using hr
    exact ⟨rfl, hc, errored_raiseErr s c⟩
  · obtain rfl : ⟨0, v⟩ = r := by simpa [hresps] using hr
    exact absurd rfl hcode
  · simp at hr

end Sys2Proof.Machine
end

section
/-! PROOFS. Instances are independent: an operation writes no instance but its own, and what it does
depends on no other (60_exceptions.md R223, 10_state.md R22). -/

namespace Sys2Proof.Machine

/-! ### An operation writes its own instance alone -/

/-- Settles O47: the one instance an operation changes is its own, and the one operation that writes
`CBLOG` tags the byte with its own index. -/
theorem operationsStayOnTheirInstance : Obligations.OperationsStayOnTheirInstance := by
  intro i s t j h hj
  constructor
  · intro k hk
    obtain ⟨-, -, ht | ⟨_, _, _, hi, -, -, ht⟩ | ⟨rfl, -⟩⟩ := exec_next h
    · rw [ht]
    · obtain rfl := Option.some.inj (hj.symm.trans hi)
      rw [ht, List.getElem?_set_ne hk.symm]
    · nomatch hj
  · obtain ht | ⟨_, u, rfl, -, ht⟩ := exec_cblog h
    · exact ⟨[], by rw [ht, List.map_nil, List.append_nil]⟩
    · obtain rfl := Option.some.inj hj
      exact ⟨_, ht.trans (congrArg _ Option.toList_map)⟩

/-! ### An operation reads its own instance alone -/

/-- From `s₁` to `t₁` and from `s₂` to `t₂` the same happened, as far as instance `j`, the two response
streams, `CBLOG` and the report can tell. -/
structure SameEffect (j : Inst) (s₁ s₂ t₁ t₂ : State) : Prop where
  uart : t₁.uart? j = t₂.uart? j
  resps : ∃ rs, t₁.resps = s₁.resps ++ rs ∧ t₂.resps = s₂.resps ++ rs
  bufResps : ∃ bs, t₁.bufResps = s₁.bufResps ++ bs ∧ t₂.bufResps = s₂.bufResps ++ bs
  cblog : ∃ ds, t₁.cblog = s₁.cblog ++ ds ∧ t₂.cblog = s₂.cblog ++ ds
  last : t₁.last = t₂.last

/-- Nothing is appended to a stream that neither operation writes. -/
theorem appends_nothing {α : Type} (xs ys : List α) : ∃ zs, xs = xs ++ zs ∧ ys = ys ++ zs :=
  ⟨[], (List.append_nil xs).symm, (List.append_nil ys).symm⟩

/-- A write to instance `j` reads back where the core has it. -/
theorem setUart_uart?_eq_map (s : State) (j : Inst) (u : Uart) :
    (s.setUart j u).uart? j = (s.uart? j).map fun _ => u :=
  List.getElem?_set_self'

section SameInstance
variable {s₁ s₂ t₁ : State} {j : Inst} (hu : s₁.uart? j = s₂.uart? j)
include hu

theorem setUart_uart?_congr (u : Uart) : (s₁.setUart j u).uart? j = (s₂.setUart j u).uart? j := by
  rw [setUart_uart?_eq_map, setUart_uart?_eq_map, hu]

/-! The ways an operation ends, each in both states. -/

theorem sameEffect_notEnabled : SameEffect j s₁ s₂ (notEnabled s₁) (notEnabled s₂) :=
  ⟨hu, appends_nothing _ _, appends_nothing _ _, appends_nothing _ _, rfl⟩

theorem sameEffect_answer (r : Resp) : SameEffect j s₁ s₂ (answer s₁ r) (answer s₂ r) :=
  ⟨hu, ⟨[r], rfl, rfl⟩, appends_nothing _ _, appends_nothing _ _, rfl⟩

theorem sameEffect_answer_setUart (u : Uart) (r : Resp) :
    SameEffect j s₁ s₂ (answer (s₁.setUart j u) r) (answer (s₂.setUart j u) r) :=
  ⟨setUart_uart?_congr hu u, ⟨[r], rfl, rfl⟩, appends_nothing _ _, appends_nothing _ _, rfl⟩

theorem sameEffect_bufAnswer_setUart (u : Uart) (w : BitVec 32) :
    SameEffect j s₁ s₂ (bufAnswer (s₁.setUart j u) w) (bufAnswer (s₂.setUart j u) w) :=
  ⟨setUart_uart?_congr hu u, appends_nothing _ _, ⟨[w], rfl, rfl⟩, appends_nothing _ _, rfl⟩

theorem sameEffect_taken_setUart (u : Uart) :
    SameEffect j s₁ s₂ (taken (s₁.setUart j u)) (taken (s₂.setUart j u)) :=
  ⟨setUart_uart?_congr hu u, appends_nothing _ _, appends_nothing _ _, appends_nothing _ _, rfl⟩

theorem sameEffect_taken_log (u : Uart) (ds : List (Nat × Byte)) :
    SameEffect j s₁ s₂ (taken { s₁.setUart j u with cblog := s₁.cblog ++ ds })
      (taken { s₂.setUart j u with cblog := s₂.cblog ++ ds }) :=
  ⟨setUart_uart?_congr hu u, appends_nothing _ _, appends_nothing _ _, ⟨ds, rfl, rfl⟩, rfl⟩

/-! The three shared frames of a meaning: each looks up the instance, which is the same. -/

theorem onCommand_sameEffect {run₁ run₂ : Uart → State}
    (hrun : ∀ u, SameEffect j s₁ s₂ (run₁ u) (run₂ u)) (h : onCommand j s₁ run₁ = .next t₁) :
    ∃ t₂, onCommand j s₂ run₂ = .next t₂ ∧ SameEffect j s₁ s₂ t₁ t₂ := by
  obtain ⟨hnone, rfl⟩ | ⟨u, hsome, rfl⟩ := onCommand_cases h
  · exact ⟨_, onCommand_absent (hu.symm.trans hnone) _, sameEffect_answer hu _⟩
  · exact ⟨_, onCommand_present (hu.symm.trans hsome) _, hrun u⟩

theorem onEvent_sameEffect {enabled : Uart → Bool} {move₁ move₂ : Uart → State}
    (hmove : ∀ u, SameEffect j s₁ s₂ (taken (move₁ u)) (taken (move₂ u)))
    (h : onEvent j s₁ enabled move₁ = .next t₁) :
    ∃ t₂, onEvent j s₂ enabled move₂ = .next t₂ ∧ SameEffect j s₁ s₂ t₁ t₂ := by
  obtain ⟨u, hsome, ⟨he, rfl⟩ | ⟨he, rfl⟩⟩ := onEvent_cases h
  · exact ⟨_, onEvent_enabled (hu.symm.trans hsome) he _, hmove u⟩
  · exact ⟨_, onEvent_disabled (hu.symm.trans hsome) he _, sameEffect_notEnabled hu⟩

end SameInstance

theorem onBuffer_sameEffect {s₁ s₂ t₁ : State} {id : BufId}
    (hu : s₁.uart? id.inst = s₂.uart? id.inst) {run : Buf → Buf × BitVec 32}
    (h : onBuffer id s₁ run = .next t₁) :
    ∃ t₂, onBuffer id s₂ run = .next t₂ ∧ SameEffect id.inst s₁ s₂ t₁ t₂ := by
  obtain ⟨u, hsome, rfl⟩ := onBuffer_cases h
  exact ⟨_, onBuffer_present (hu.symm.trans hsome) _, sameEffect_bufAnswer_setUart hu _ _⟩

/-- With the same parameters and the same instance, an operation of that instance has the same
effect. -/
theorem exec_sameEffect {i : Instr} {s₁ s₂ t₁ : State} {j : Inst} (hj : i.inst? = some j)
    (hp : s₁.params = s₂.params) (hu : s₁.uart? j = s₂.uart? j) (h : exec i s₁ = .next t₁) :
    ∃ t₂, exec i s₂ = .next t₂ ∧ SameEffect j s₁ s₂ t₁ t₂ := by
  cases i with
  | tick => nomatch hj
  | bufStore id | bufRead id | bufPeek id | bufAvail id | bufIsfull id | bufClear id =>
    obtain rfl := Option.some.inj hj
    simp only [exec, execBufStore, execBufRead, execBufPeek, execBufAvail, execBufIsfull,
      execBufClear, ← hp] at h ⊢
    exact onBuffer_sameEffect hu h
  | available | peek | writecomplete | bool =>
    obtain rfl := Option.some.inj hj
    simp only [exec, execAvailable, execPeek, execWritecomplete, execBool, ← hp] at h ⊢
    exact onCommand_sameEffect hu (fun _ => sameEffect_answer hu _) h
  | setpins | endUart | read | attach | detach =>
    obtain rfl := Option.some.inj hj
    simp only [exec, execSetpins, execEnd, execRead, execAttach, execDetach, ← hp] at h ⊢
    exact onCommand_sameEffect hu (fun _ => sameEffect_answer_setUart hu _ _) h
  | beginUart _ m baud =>
    obtain rfl := Option.some.inj hj
    refine onCommand_sameEffect hu (fun u => ?_) h
    cases decodeMode m with
    | none => exact sameEffect_answer hu _
    | some f =>
      dsimp only
      rw [← hp]
      split
      · exact sameEffect_answer hu _
      · exact sameEffect_answer_setUart hu _ _
  | flush =>
    obtain rfl := Option.some.inj hj
    refine onCommand_sameEffect hu (fun u => ?_) h
    split
    · exact sameEffect_answer hu _
    · exact sameEffect_notEnabled hu
  | write =>
    obtain rfl := Option.some.inj hj
    refine onCommand_sameEffect hu (fun u => ?_) h
    rw [← hp]
    split
    · exact sameEffect_answer hu _
    · split
      · exact sameEffect_answer hu _
      · exact sameEffect_answer_setUart hu _ _
  | dispatch =>
    obtain rfl := Option.some.inj hj
    refine onEvent_sameEffect hu (fun u => ?_) h
    rw [← hp]
    exact sameEffect_taken_log hu _ _
  | rxArrive | txLoad | txShiftDone =>
    obtain rfl := Option.some.inj hj
    exact onEvent_sameEffect hu (fun _ => sameEffect_taken_setUart hu _) h

/-- Settles O48: every frame of a meaning reads of the instances the operation's own alone, and every
ending appends what the parameters and that instance give. -/
theorem otherInstancesAreInvisible : Obligations.OtherInstancesAreInvisible := by
  intro i s₁ s₂ t₁ j hj hp hu h
  obtain ⟨t₂, hexec, huart, ⟨rs, hrs₁, hrs₂⟩, ⟨bs, hbs₁, hbs₂⟩, ⟨ds, hds₁, hds₂⟩, hlast⟩ :=
    exec_sameEffect hj hp hu h
  exact ⟨t₂, rs, bs, ds, hexec, huart, hrs₁, hrs₂, hbs₁, hbs₂, hds₁, hds₂, hlast⟩

end Sys2Proof.Machine
end

section
/-! PROOFS. Nothing but a `WRITE` to an instance adds to the work of its transmitter, and each step that
moves a byte along takes one from it (70_reset_and_hazards.md R259). -/

namespace Sys2Proof.Machine

/-! ### A taken event ran -/

/-- An event that is reported taken found its instance enabled and made its move (00_scope.md R13). -/
theorem onEvent_taken {s t : State} {j : Inst} {u : Uart} {enabled : Uart → Bool}
    {move : Uart → State} (h : onEvent j s enabled move = .next t) (hu : s.uart? j = some u)
    (hl : t.last = .taken) : enabled u = true ∧ t = taken (move u) := by
  obtain ⟨v, hv, hran | ⟨-, rfl⟩⟩ := onEvent_cases h
  · obtain rfl := Option.some.inj (hu.symm.trans hv)
    exact hran
  · nomatch hl

/-- A taken step of the transmitter made the change of its rule. -/
theorem TransmitStep.change_of_taken {i : Instr} {s t : State} {j : Inst} {u u' : Uart}
    (hi : TransmitStep j i) (h : exec i s = .next t) (hu : s.uart? j = some u)
    (hu' : t.uart? j = some u') (hl : t.last = .taken) : Change s.params i u u' := by
  have written : ∀ v, (s.setUart j v).uart? j = some u' → u' = v := fun v hv =>
    Option.some.inj (hv.symm.trans (setUart_uart?_self hu))
  obtain rfl | rfl | rfl := hi <;> obtain ⟨he, rfl⟩ := onEvent_taken h hu hl
  · exact written _ hu' ▸ .dispatch j u he
  · exact written _ hu' ▸ .txLoad j u he
  · exact written _ hu' ▸ .txShiftDone j u he

/-! ### What each change does to the work left -/

@[simp] theorem tickUart_txWork (p q : Params) (u : Uart) :
    txWork q (tickUart p u) = txWork q u := by
  rw [tickUart_frame]
  rfl

theorem beginSequence_txWork (p : Params) (u : Uart) (m : Byte) (f : Frame) (baud : BitVec 32) :
    txWork p (beginSequence p u m f baud) = 0 := by
  simp [txWork, beginSequence_eq, clear_count (slots_pos p)]

theorem endSequence_txWork (p : Params) (u : Uart) : txWork p (endSequence u) = 0 := by
  simp [txWork, endSequence_eq, clear_count (slots_pos p)]

/-- With an empty `TXB` the transmit engine only turns its interrupt line off (42_dispatch.md R173). -/
theorem transmitPart_txWork_of_empty (p : Params) (j : Inst) {u : Uart} (he : isEmpty u.txb = true) :
    txWork p (transmitPart p j u) = txWork p u := by
  rw [transmitPart_empty p j u he]
  rfl

/-- An ISR entry that finds no queued byte leaves the work as it is. -/
theorem serviceBoth_txWork_of_empty (p : Params) (j : Inst) {u : Uart} (he : isEmpty u.txb = true) :
    txWork p (serviceBoth p j u).1 = txWork p u := by
  obtain ⟨-, -, hs⟩ | ⟨-, -, hs⟩ | ⟨-, -, hs⟩ | ⟨-, -, hs⟩ := serviceBoth_cases p j u <;> rw [hs]
  · rw [transmitPart_txWork_of_empty p j (by rw [receivePart_txb, he]), receivePart_txWork]
  · exact receivePart_txWork p u
  · exact transmitPart_txWork_of_empty p j he

/-- So does one without the TX event, which runs at most the receive engine. -/
theorem serviceBoth_txWork_of_no_txEv (p : Params) (j : Inst) {u : Uart} (hev : txEv u = false) :
    txWork p (serviceBoth p j u).1 = txWork p u := by
  cases hrx : rxEv u with
  | true => rw [serviceBoth_rx p j u hrx hev, receivePart_txWork]
  | false => simp [serviceBoth, hrx, hev]

/-- `TX_LOAD` runs with a byte in the transmit register and none in the shift register
(43_environment_timer.md R192). -/
theorem Change.txLoad_txWork {p : Params} {j : Inst} {u u' : Uart} (hc : Change p (.txLoad j) u u') :
    txWork p u' + 1 = txWork p u := by
  cases hc with
  | txLoad _ _ he =>
    obtain ⟨-, hemp, hsh⟩ := txLoadEnabled_iff.1 he
    simp [txWork, hemp, hsh]

/-- `TX_SHIFT_DONE` runs with a byte in the shift register (R193). -/
theorem Change.txShiftDone_txWork {p : Params} {j : Inst} {u u' : Uart}
    (hc : Change p (.txShiftDone j) u u') : txWork p u' + 1 = txWork p u := by
  cases hc with
  | txShiftDone _ _ he =>
    obtain ⟨-, hsh⟩ := txShiftDoneEnabled_iff.1 he
    simp [txWork, hsh]

section Bounds
variable {p : Params} {u u' : Uart} (hp : p.wf) (h : uartWf p u)
include hp h

theorem serviceBoth_txWork_le (j : Inst) : txWork p (serviceBoth p j u).1 ≤ txWork p u := by
  cases hev : txEv u with
  | false => exact (serviceBoth_txWork_of_no_txEv p j hev).le
  | true =>
    cases he : isEmpty u.txb with
    | true => exact (serviceBoth_txWork_of_empty p j he).le
    | false => exact Nat.le_of_succ_le (serviceBoth_txWork hp h he hev j).le

/-- Of the changes that no bench makes, only that of `WRITE` adds to the work. -/
theorem Change.txWork_le {i : Instr} {j : Inst} (hc : Change p i u u') (hj : i.inst? = some j)
    (hport : i.port ≠ .buffer) (hwrite : ∀ v, i ≠ .write j v) : txWork p u' ≤ txWork p u := by
  cases hc with
  | setpins | attach | detach | read | rxArrive => exact le_rfl
  | begin _ m baud _ f => exact (beginSequence_txWork p u m f baud).trans_le (Nat.zero_le _)
  | ending => exact (endSequence_txWork p u).trans_le (Nat.zero_le _)
  | write k v =>
    obtain rfl := Option.some.inj hj
    exact absurd rfl (hwrite v)
  | bufStore | bufRead | bufClear => exact absurd rfl hport
  | dispatch k => exact serviceBoth_txWork_le hp h k
  | txLoad k _ he => exact Nat.le_of_succ_le (Change.txLoad k u he).txLoad_txWork.le
  | txShiftDone k _ he => exact Nat.le_of_succ_le (Change.txShiftDone k u he).txShiftDone_txWork.le

/-- A `DISPATCH` with the TX event pending and a byte queued moves that byte (42_dispatch.md R173). -/
theorem Change.dispatch_txWork {j : Inst} (hc : Change p (.dispatch j) u u') (hev : txEv u = true)
    (he : isEmpty u.txb = false) : txWork p u' + 1 = txWork p u := by
  cases hc with
  | dispatch => exact serviceBoth_txWork hp h he hev j

end Bounds

/-- Settles O58: no change but that of `WRITE` adds to the work, and a taken step that has a byte to
move made its change, which takes one. -/
theorem transmitWorkOnlyFalls : Obligations.TransmitWorkOnlyFalls := by
  rintro i s t j u u' ⟨⟨hp, -⟩, hall⟩ hport hwrite h hu hu'
  have hwf := hall u (uart?_mem hu)
  constructor
  · obtain rfl | ⟨hj, hc⟩ | ⟨-, rfl⟩ := exec_uart h hu hu'
    · exact le_rfl
    · exact hc.txWork_le hp hwf hj hport hwrite
    · exact (tickUart_txWork _ _ _).le
  · rintro hl (rfl | rfl | ⟨rfl, hev, he⟩)
    · exact (TransmitStep.change_of_taken (.inr (.inl rfl)) h hu hu' hl).txLoad_txWork
    · exact (TransmitStep.change_of_taken (.inr (.inr rfl)) h hu hu' hl).txShiftDone_txWork
    · exact (TransmitStep.change_of_taken (.inl rfl) h hu hu' hl).dispatch_txWork hp hwf hev he

end Sys2Proof.Machine
end

section
/-! PROOFS. The parameters and descriptors are fixed data, and every field has its reset value
(70_reset_and_hazards.md R240 to R242). -/

namespace Sys2Proof.Machine

/-- Settles O49: an operation keeps the parameters and, with each change of an instance, its
descriptor, and so does a step that runs none. -/
theorem noStepChangesParameter : Obligations.NoStepChangesParameter := by
  intro s t h
  obtain ⟨hp, -⟩ := step_uarts h
  exact ⟨hp, step_descs_eq h⟩

/-- Instance `k` of the reset core is the reset instance of descriptor `k` (R241). -/
theorem resetWith_uarts_getElem? {ds : List Descriptor} {k : Nat} {d : Descriptor} (p : Params)
    (h : ds[k]? = some d) : (State.resetWith p ds).uarts[k]? = some (Uart.reset k d) := by
  simp [State.resetWith, h]

/-- Settles O54: the instance at `k` is `Uart.reset k d`, whose fields are those that 10_state.md
gives. -/
theorem resetValues : Obligations.ResetValues := by
  intro p ds k d hd
  exact ⟨rfl, resetWith_numUart p ds, rfl, rfl, Uart.reset k d, resetWith_uarts_getElem? p hd,
    rfl, rfl, rfl, rfl, rfl, rfl, rfl, rfl, rfl⟩

end Sys2Proof.Machine
end
